-- ==== Sys2Proof/Word.lean ====
section
/-! DEFINITION. The value types of 00_scope.md rules R9 and R10: bytes, nibbles, words, and the fixed-size byte
arrays that the engine's registers hold. -/

namespace Sys2Proof

/-- R10: an unsigned 8-bit value. -/
abbrev Byte := BitVec 8

/-- R10: an unsigned 4-bit value. -/
abbrev Nibble := BitVec 4

/-- R10: an unsigned 32-bit value. -/
abbrev Word := BitVec 32

/-- 20_memory.md R70: a byte offset in the 65536-byte register window. -/
abbrev Offset := BitVec 16

/-- R9, Object Salt: 4 bytes. -/
abbrev Salt := Vector Byte 4

/-- R9, Session Key: 8 bytes. -/
abbrev Key := Vector Byte 8

/-- R9, Stored Password Hash (the Diffusion Hash's output): 16 bytes. -/
abbrev Digest := Vector Byte 16

/-- R9, Login Hash (the Block Cipher's output): 8 bytes. -/
abbrev LoginHash := Vector Byte 8

/-- R9, Normalized Block: 32 bytes. -/
abbrev Block := Vector Byte 32

end Sys2Proof
end

