-- ==== Sys2Proof/Machine/Bytes.lean ====
section
/-! DEFINITION. Byte arrays (00_scope.md R11) and the big-endian byte order of the bus (20_memory.md R74). -/

namespace Sys2Proof.Machine

/-- `A[i]`, for an index inside the array (R11). -/
def byteAt {n : Nat} (v : Vector Byte n) (i : Nat) : Byte := v[i]?.getD 0#8

/-- `A[i] <- b`, for an index inside the array. -/
def setByte {n : Nat} (v : Vector Byte n) (i : Nat) (b : Byte) : Vector Byte n := v.setIfInBounds i b

/-- `[0x00; n]` (R11). -/
def zeroBytes (n : Nat) : Vector Byte n := Vector.replicate n 0#8

/-- The byte that a 32-bit register shows at `j` bytes above its offset: bits [31-8j : 24-8j] (20_memory.md R74). -/
def wordByte (w : Word) (j : Nat) : Byte := w.extractLsb' (24 - 8 * j) 8

/-- Four bytes as a 32-bit word, the byte of the lowest offset in bits [31:24] (20_memory.md R74). -/
def wordOfBytes (b0 b1 b2 b3 : Byte) : Word := b0 ++ b1 ++ b2 ++ b3

/-- The four bytes of a word in the order of their offsets (20_memory.md R74). -/
def wordBytes (w : Word) : List Byte := [wordByte w 0, wordByte w 1, wordByte w 2, wordByte w 3]

end Sys2Proof.Machine
end

