-- ==== Sys2Proof/Machine/HostSyntax.lean ====
section
/-! DEFINITION. The host's program syntax (30_encoding.md R117), as abstract syntax. The host is the second agent
of 00_scope.md R17; its lines are what it does to the engine. -/

namespace Sys2Proof.Machine

/-- The width of a host transaction. 20_memory.md R73 allows `w8` and `w32`; `w16` and `w64` are the other widths
that a host's bus may be able to issue, which the model refuses. -/
inductive Width where
  | w8
  | w16
  | w32
  | w64
deriving DecidableEq, Repr

/-- What one line of a host program does (R117; 45_adapters.md R228). A host register `name` and a label are numbers. -/
inductive HostOp where
  /-- `WR32 off, v` and `WR8 off, v`: HostWrite. `v` is zero-extended to 32 bits (20_memory.md R82). -/
  | wr (width : Width) (off : Offset) (v : Word)
  /-- HostWrite of a host register XORed with `v`, the value the host computes in step 4 of 45_adapters.md R228.
  R117's notation has no such line (log 21). -/
  | wrXor (width : Width) (off : Offset) (name : Nat) (v : Word)
  /-- `RD32 off -> name` and `RD8 off -> name`: HostRead. -/
  | rd (width : Width) (off : Offset) (name : Nat)
  /-- `BNZ name, mask, label`. -/
  | bnz (name : Nat) (mask : Word) (label : Nat)
deriving DecidableEq, Repr

/-- A line of a host program, with the labels that name it (R117: `label:` names the next line). -/
structure HostLine where
  labels : List Nat
  op : HostOp
deriving DecidableEq, Repr

/-- The number of the first line, counted from `k`, that the label names. -/
def labelLine (label : Nat) : Nat → List HostLine → Option Nat
  | _, [] => none
  | k, l :: rest => if label ∈ l.labels then some k else labelLine label (k + 1) rest

/-- A line without a label. -/
def plainLine (op : HostOp) : HostLine := ⟨[], op⟩

end Sys2Proof.Machine
end

