-- ==== Sys2Proof/Syntax.lean ====
section
/-! DEFINITION. The command set NWCE-1 (00_scope.md R3, 30_encoding.md R113): one constructor for each row of
spec/opcode_table.json. -/

namespace Sys2Proof

/-- The four commands. No command takes a register operand; LEN is the only immediate (30_encoding.md R112). -/
inductive Instr where
  /-- 44_control.md R212. -/
  | nop
  /-- 41_stretcher.md R156; `len` is the declared length in bytes. -/
  | stretch (len : Nat)
  /-- 42_diffusion.md R175. -/
  | diffuse
  /-- 43_cipher.md R195. -/
  | cipher
deriving DecidableEq, Repr

end Sys2Proof
end

