-- ==== Sys2Proof/WellFormed.lean ====
section
/-! DEFINITION. Which commands can be written as a command word, and which host programs have a meaning for every
jump. -/

namespace Sys2Proof

/-- A command is well-formed when its LEN fits the field w[31:16] (30_encoding.md R112, R116: 0..65535). -/
def Instr.wellFormed : Instr → Bool
  | .nop => true
  | .stretch len => decide (len ≤ 65535)
  | .diffuse => true
  | .cipher => true

/-- A line is well-formed in a program when the label it jumps to names a line there (30_encoding.md R117). -/
def Machine.HostOp.wellFormed (program : List Machine.HostLine) : Machine.HostOp → Bool
  | .wr _ _ _ => true
  | .wrXor _ _ _ _ => true
  | .rd _ _ _ => true
  | .bnz _ _ label => (Machine.labelLine label 0 program).isSome

/-- A host program is well-formed when no label names two lines and every jump's label names one. -/
def Machine.programWellFormed (program : List Machine.HostLine) : Bool :=
  decide (program.flatMap Machine.HostLine.labels).Nodup && program.all fun l => l.op.wellFormed program

end Sys2Proof
end

