-- ==== Sys2Proof/Decode.lean ====
section
/-! DEFINITION. The command word (30_encoding.md): its fields, the decoder of R114, and the encoder of R116. -/

namespace Sys2Proof

/-- Why bytes are no command. The first three are the three grounds of 30_encoding.md R115; the engine raises
E_ILLEGAL for each of them. The fourth is for the decoder of bytes alone: a command is 4 bytes (R111). -/
inductive DecodeError where
  /-- OP is 0x4..0xF. -/
  | reservedOpcode
  /-- RSV is not 0. -/
  | reservedBits
  /-- OP is not 0x1 and LEN is not 0. -/
  | lengthNotZero
  /-- Fewer than four bytes. -/
  | tooFewBytes
deriving DecidableEq, Repr

/-- R110: the field OP, bits [3:0]. -/
def opField (w : Word) : BitVec 4 := w.extractLsb' 0 4

/-- R110: the field RSV, bits [15:4]. -/
def rsvField (w : Word) : BitVec 12 := w.extractLsb' 4 12

/-- R110: the field LEN, bits [31:16]. -/
def lenField (w : Word) : BitVec 16 := w.extractLsb' 16 16

/-- Which ground of R115 an illegal word falls under (the first that holds; the choice among them has no effect). -/
def illegalReason (w : Word) : DecodeError :=
  if 4 ≤ (opField w).toNat then .reservedOpcode
  else if rsvField w ≠ 0#12 then .reservedBits
  else .lengthNotZero

/-- R114: decoding is total over every 32-bit word. -/
def decode (w : Word) : Except DecodeError Instr :=
  if opField w = 0x1#4 ∧ rsvField w = 0#12 then .ok (.stretch (lenField w).toNat)
  else if opField w = 0x0#4 ∧ rsvField w = 0#12 ∧ lenField w = 0#16 then .ok .nop
  else if opField w = 0x2#4 ∧ rsvField w = 0#12 ∧ lenField w = 0#16 then .ok .diffuse
  else if opField w = 0x3#4 ∧ rsvField w = 0#12 ∧ lenField w = 0#16 then .ok .cipher
  else .error (illegalReason w)

/-- The command that the first four bytes hold, in the bus's byte order (20_memory.md R74), and the bytes after
it. -/
def decodeBytes : List Byte → Except DecodeError (Instr × List Byte)
  | b0 :: b1 :: b2 :: b3 :: rest =>
    match decode (Machine.wordOfBytes b0 b1 b2 b3) with
    | .ok i => .ok (i, rest)
    | .error e => .error e
  | _ => .error .tooFewBytes

/-- R110: the word with the given fields. -/
def commandWord (len : BitVec 16) (op : BitVec 4) : Word := len ++ 0#12 ++ op

/-- R116: the word of a command. DESIGN CHOICE: an ill-formed LEN, above 65535, has no word in R116 and is taken modulo
65536 (log 23). -/
def encode : Instr → Word
  | .nop => commandWord 0#16 0x0#4
  | .stretch len => commandWord (BitVec.ofNat 16 len) 0x1#4
  | .diffuse => commandWord 0#16 0x2#4
  | .cipher => commandWord 0#16 0x3#4

/-- One row of the full match patterns of R113. -/
structure OpcodeRow where
  mnemonic : String
  mask : Word
  pattern : Word
deriving DecidableEq, Repr

/-- R113: a word belongs to a row when its bits under the mask are the row's pattern. -/
def OpcodeRow.fits (r : OpcodeRow) (w : Word) : Bool := w &&& r.mask == r.pattern

/-- The row of R113 that a command belongs to. -/
def opcodeRow : Instr → OpcodeRow
  | .nop => ⟨"NOP", 0xFFFFFFFF#32, 0x00000000#32⟩
  | .stretch _ => ⟨"STRETCH", 0x0000FFFF#32, 0x00000001#32⟩
  | .diffuse => ⟨"DIFFUSE", 0xFFFFFFFF#32, 0x00000002#32⟩
  | .cipher => ⟨"CIPHER", 0xFFFFFFFF#32, 0x00000003#32⟩

/-- The rows of R113. -/
def opcodeRows : List OpcodeRow := [opcodeRow .nop, opcodeRow (.stretch 0), opcodeRow .diffuse, opcodeRow .cipher]

/-- The command that the decoder reads from a table row's bits `w`: its four bytes are laid out as the bus stores
them, the byte of bits [31:24] at the lowest offset. -/
def decodeTableWord (nbits w : Nat) : Option Instr :=
  match decodeBytes (Machine.wordBytes (BitVec.ofNat 32 (w % 2 ^ nbits))) with
  | .ok (i, _) => some i
  | .error _ => none

end Sys2Proof
end

