-- ==== Sys2Proof/Config.lean ====
section
/-! DEFINITION. What an implementation or the platform fixes, and the free values: everything the spec leaves open
(93_implementation_defined.md Part 1). The constants with no body are opaque, so nothing can be proved of their
values and every theorem holds for all of them. -/

namespace Sys2Proof.Config

/-- The free part of the parameter P_IN_BYTES (00_scope.md R8; log 4). -/
opaque capacityBlocks : Nat

/-- P_IN_BYTES, the capacity of INBUF (00_scope.md R8): a multiple of 32 in 32..32768, otherwise open. Every such
multiple is `32 * (k % 1024 + 1)` for some `k`. DESIGN CHOICE of form only (log 4). -/
def inBytes : Nat := 32 * (capacityBlocks % 1024 + 1)

/-- P_WINDOW_BASE, the window's base in the host's own address space (20_memory.md R70; log 13). -/
opaque windowBase : Nat

/-- How many steps after its acceptance a command's completion step comes: finite and unspecified
(70_reset_and_hazards.md R289, 44_control.md R214). A free value, drawn afresh at each acceptance (log 3). -/
opaque latency : Nat → Nat

/-- What a read that 70_reset_and_hazards.md R285 calls unspecified returns: a free value, drawn afresh for each
byte of each read (R15, 93_implementation_defined.md U3; log 2). -/
opaque unspecifiedByte : Nat → Byte

/-- The constant of register ID (10_state.md R39). -/
def idValue : Word := 0x4E570001#32

end Sys2Proof.Config
end

