-- ==== Sys2Proof/Machine/State.lean ====
section
/-! DEFINITION. The machine's state (10_state.md R30, R47, R50; 00_scope.md R17), why a step can stop, and the state
after reset. INVENTORY.md lists every field with its rule and its reset value. -/

namespace Sys2Proof.Machine

/-- Why the machine stops with a fault. The spec has no trap (60_exceptions.md R248): these are the two cases that
93_implementation_defined.md tells a model to treat as a fault. -/
inductive Fault where
  /-- The host read an INBUF byte that nothing has written since reset (20_memory.md R90, U1). Raised by a host
  read. Safe: the hardware returns some byte and goes on. -/
  | inbufReadUnwritten
  /-- STRETCH reached its completion step while a byte of INBUF[0..LEN) had not been written since reset
  (41_stretcher.md R156, U2). Raised by the meaning of STRETCH. Safe: the hardware completes with an unspecified
  BLOCK. -/
  | stretchUnwritten
deriving DecidableEq, Repr

/-- Why a step has no meaning. -/
inductive Refusal where
  /-- An instruction without a meaning. Raised by an arm of `exec` only; no arm does. Safe. -/
  | notModelled (mnemonic : String)
  /-- A 32-bit host access at an offset that is no multiple of 4 (20_memory.md R77, U4). Raised by a host access.
  Safe: R77 leaves open which bytes it touches. -/
  | misalignedAccess
  /-- A 16-bit or 64-bit host access (20_memory.md R73, U5). Raised by a host access. Safe: R73 leaves its effect
  open. -/
  | unsupportedWidth
  /-- The host's program jumps to a label that names no line, which 30_encoding.md R117 gives no meaning. Raised by
  the host agent only, never by the engine. Safe. -/
  | unknownLabel
deriving DecidableEq, Repr

/-- The RAM of the window, INBUF (10_state.md R36): the bytes that the host has written since reset, each at its
window offset. A byte is listed exactly when its written-mark (R50) is 1 (log 1). -/
abbrev Memory := List Host.Cell

structure State where
  /-- SALT (R31). -/
  salt : Salt
  /-- KEY (R32). -/
  key : Key
  /-- DIGEST (R33). -/
  digest : Digest
  /-- OUT (R34). -/
  out : LoginHash
  /-- BLOCK (R35). -/
  block : Block
  /-- INBUF with its written-marks (R36, R50). -/
  inbuf : Memory
  /-- PENDING (R47); STATUS.BUSY reads 1 exactly when it holds a command (R42). -/
  pending : Option Instr
  /-- STATUS.DONE (R43). -/
  done : Bool
  /-- STATUS.ERR (R44). -/
  err : Bool
  /-- STATUS.ERRCODE (R44, 60_exceptions.md R241). -/
  errcode : BitVec 4
  /-- The model's own: how many steps run before the pending command's completion step (log 3). -/
  delay : Nat
  /-- The model's own: how many free values have been drawn (log 2). -/
  draws : Nat
  /-- The model's own: the reset pulses still to come, each after so many steps (log 6). -/
  resetAfter : List Nat
  /-- The host agent's program (30_encoding.md R117; log 7). -/
  program : List HostLine
  /-- The number of the line that the host agent runs next. -/
  line : Nat
  /-- The host agent's own registers `name` (R117), in rising order of the name. -/
  names : List (Nat × Word)
deriving DecidableEq, Repr

/-- 70_reset_and_hazards.md R280: every register at its reset value, nothing pending, no error, INBUF unwritten. No
host program is loaded and no further reset is scheduled (log 6, 7). -/
def State.reset : State where
  salt := zeroBytes 4
  key := zeroBytes 8
  digest := zeroBytes 16
  out := zeroBytes 8
  block := zeroBytes 32
  inbuf := []
  pending := none
  done := false
  err := false
  errcode := 0#4
  delay := 0
  draws := 0
  resetAfter := []
  program := []
  line := 0
  names := []

end Sys2Proof.Machine
end

