-- ==== Sys2Proof/Machine/Cells.lean ====
section
/-! DEFINITION. Sparse data by key: the one canonical form of INBUF's bytes and of the host's names, a list of
(key, value) pairs with strictly rising keys. -/

namespace Sys2Proof.Machine

/-- The value listed for a key. -/
def cellFind {β : Type} : List (Nat × β) → Nat → Option β
  | [], _ => none
  | (a, v) :: rest, k => if k = a then some v else cellFind rest k

/-- Lists a value for a key, in the place that keeps the keys rising, replacing an earlier one. -/
def cellInsert {β : Type} (k : Nat) (v : β) : List (Nat × β) → List (Nat × β)
  | [] => [(k, v)]
  | (a, u) :: rest =>
    if k < a then (k, v) :: (a, u) :: rest
    else if k = a then (k, v) :: rest
    else (a, u) :: cellInsert k v rest

/-- The keys rise strictly, and the first is at least `lo`. -/
def cellsRise {β : Type} : Nat → List (Nat × β) → Bool
  | _, [] => true
  | lo, (a, _) :: rest => decide (lo ≤ a) && cellsRise (a + 1) rest

/-- The window offset of INBUF byte 0 (20_memory.md R71). -/
def inbufBase : Nat := 0x8000

/-- The canonical form of INBUF's bytes: offsets strictly rising, all of them INBUF's (20_memory.md R71). An
unlisted byte is unwritten and reads as no value, so no entry can equal it. -/
def Memory.wf (m : Memory) : Bool :=
  cellsRise inbufBase m && m.all fun c => decide (c.1 < inbufBase + Config.inBytes)

/-- The bytes at `n` offsets from `a` on, if all of them are written. -/
def cellRun (m : Memory) : Nat → Nat → Option (List Byte)
  | _, 0 => some []
  | a, n + 1 =>
    match cellFind m a, cellRun m (a + 1) n with
    | some b, some bs => some (b :: bs)
    | _, _ => none

end Sys2Proof.Machine
end

