-- ==== Sys2Proof/Machine/Flags.lean ====
section
/-! DEFINITION. The STATUS register (10_state.md R41 to R45) and the recording of errors (60_exceptions.md R241,
R245). The engine has no other flags (R49). -/

namespace Sys2Proof.Machine

/-- The interface errors (60_exceptions.md R241). -/
inductive ErrorCode where
  /-- The command word decodes to ILLEGAL (R242). -/
  | illegal
  /-- STRETCH with LEN > P_IN_BYTES (R243). -/
  | length
  /-- A write to CMD or to an RW data register while BUSY = 1 (R244). -/
  | busy
deriving DecidableEq, Repr

/-- The value that STATUS.ERRCODE takes (R241). -/
def ErrorCode.code : ErrorCode → BitVec 4
  | .illegal => 1#4
  | .length => 2#4
  | .busy => 3#4

/-- R42: STATUS.BUSY reads 1 exactly when PENDING holds a command. -/
def busy (s : State) : Bool := s.pending.isSome

/-- R41: the value of STATUS. Bits [31:8] and [3] read 0. -/
def status (s : State) : Word :=
  0#24 ++ s.errcode ++ 0#1 ++ BitVec.ofBool s.err ++ BitVec.ofBool s.done ++ BitVec.ofBool (busy s)

/-- R45: the write of `v` to STATUS, write-one-to-clear for DONE and ERR. Clearing the error record is the only
"return" from an error (60_exceptions.md R249). -/
def statusW1C (v : Word) (s : State) : State :=
  { s with
    done := if v.getLsbD 1 then false else s.done
    err := if v.getLsbD 2 then false else s.err
    errcode := if v.getLsbD 2 then 0#4 else s.errcode }

/-- 60_exceptions.md R245, `raise Error(code)`: the first error since ERR was last 0 is kept. This is all that takes
the place of exception entry: nothing else is saved and no control is transferred (R248). -/
def raiseError (e : ErrorCode) (s : State) : State :=
  if s.err then s else { s with err := true, errcode := e.code }

end Sys2Proof.Machine
end

