-- ==== Sys2Proof/Machine/Tables.lean ====
section
/-! DEFINITION. The two constant tables (40_tables.md). The source names them and does not print them; the spec
supplies their contents (R140, R142). -/

namespace Sys2Proof.Machine

/-- The Key Table KTAB, `KT[0..32)` (40_tables.md R140). PRESUMED: the contents are the spec's general knowledge, and
the source's two vectors confirm every byte (R146; log 11). -/
def ktab : Block :=
  #v[0x48#8, 0x93#8, 0x46#8, 0x67#8, 0x98#8, 0x3D#8, 0xE6#8, 0x8D#8,
    0xB7#8, 0x10#8, 0x7A#8, 0x26#8, 0x5A#8, 0xB9#8, 0xB1#8, 0x35#8,
    0x6B#8, 0x0F#8, 0xD5#8, 0x70#8, 0xAE#8, 0xFB#8, 0xAD#8, 0x11#8,
    0xF4#8, 0x47#8, 0xDC#8, 0xA7#8, 0xEC#8, 0xCF#8, 0x50#8, 0xC0#8]

/-- `KT[i]` (00_scope.md R14). -/
def kt (i : Nat) : Byte := byteAt ktab i

/-- SBOX, the row 0x00 of 40_tables.md R142. -/
def sboxRow0 : List Nibble :=
  [0x7#4, 0x8#4, 0x0#4, 0x8#4, 0x6#4, 0x4#4, 0xE#4, 0x4#4, 0x5#4, 0xC#4, 0x1#4, 0x7#4, 0xB#4, 0xF#4, 0xA#4, 0x8#4]

/-- SBOX, the row 0x10 of 40_tables.md R142. -/
def sboxRow1 : List Nibble :=
  [0xF#4, 0x8#4, 0xC#4, 0xC#4, 0x9#4, 0x4#4, 0x1#4, 0xE#4, 0x4#4, 0x6#4, 0x2#4, 0x4#4, 0x0#4, 0xA#4, 0xB#4, 0x9#4]

/-- SBOX, the row 0x20 of 40_tables.md R142. -/
def sboxRow2 : List Nibble :=
  [0x2#4, 0xF#4, 0xB#4, 0x1#4, 0xD#4, 0x2#4, 0x1#4, 0x9#4, 0x5#4, 0xE#4, 0x7#4, 0x0#4, 0x0#4, 0x2#4, 0x6#4, 0x6#4]

/-- SBOX, the row 0x30 of 40_tables.md R142. -/
def sboxRow3 : List Nibble :=
  [0x0#4, 0x7#4, 0x3#4, 0x8#4, 0x2#4, 0x9#4, 0x3#4, 0xF#4, 0x7#4, 0xF#4, 0xC#4, 0xF#4, 0x6#4, 0x4#4, 0xA#4, 0x0#4]

/-- SBOX, the row 0x40 of 40_tables.md R142. -/
def sboxRow4 : List Nibble :=
  [0x2#4, 0x3#4, 0xA#4, 0xB#4, 0xD#4, 0x8#4, 0x3#4, 0xA#4, 0x1#4, 0x7#4, 0xC#4, 0xF#4, 0x1#4, 0x8#4, 0x9#4, 0xD#4]

/-- SBOX, the row 0x50 of 40_tables.md R142. -/
def sboxRow5 : List Nibble :=
  [0x9#4, 0x1#4, 0x9#4, 0x4#4, 0xE#4, 0x4#4, 0xC#4, 0x5#4, 0x5#4, 0xC#4, 0x8#4, 0xB#4, 0x2#4, 0x3#4, 0x9#4, 0xE#4]

/-- SBOX, the row 0x60 of 40_tables.md R142. -/
def sboxRow6 : List Nibble :=
  [0x7#4, 0x7#4, 0x6#4, 0x9#4, 0xE#4, 0xF#4, 0xC#4, 0x8#4, 0xD#4, 0x1#4, 0xA#4, 0x6#4, 0xE#4, 0xD#4, 0x0#4, 0x7#4]

/-- SBOX, the row 0x70 of 40_tables.md R142. -/
def sboxRow7 : List Nibble :=
  [0x7#4, 0xA#4, 0x0#4, 0x1#4, 0xF#4, 0x5#4, 0x4#4, 0xB#4, 0x7#4, 0xB#4, 0xE#4, 0xC#4, 0x9#4, 0x5#4, 0xD#4, 0x1#4]

/-- SBOX, the row 0x80 of 40_tables.md R142. -/
def sboxRow8 : List Nibble :=
  [0xB#4, 0xD#4, 0x1#4, 0x3#4, 0x5#4, 0xD#4, 0xE#4, 0x6#4, 0x3#4, 0x0#4, 0xB#4, 0xB#4, 0xF#4, 0x3#4, 0x6#4, 0x4#4]

/-- SBOX, the row 0x90 of 40_tables.md R142. -/
def sboxRow9 : List Nibble :=
  [0x9#4, 0xD#4, 0xA#4, 0x3#4, 0x1#4, 0x4#4, 0x9#4, 0x4#4, 0x8#4, 0x3#4, 0xB#4, 0xE#4, 0x5#4, 0x0#4, 0x5#4, 0x2#4]

/-- SBOX, the row 0xA0 of 40_tables.md R142. -/
def sboxRowA : List Nibble :=
  [0xC#4, 0xB#4, 0xD#4, 0x5#4, 0xD#4, 0x5#4, 0xD#4, 0x2#4, 0xD#4, 0x9#4, 0xA#4, 0xC#4, 0xA#4, 0x0#4, 0xB#4, 0x3#4]

/-- SBOX, the row 0xB0 of 40_tables.md R142. -/
def sboxRowB : List Nibble :=
  [0x5#4, 0x3#4, 0x6#4, 0x9#4, 0x5#4, 0x1#4, 0xE#4, 0xE#4, 0x0#4, 0xE#4, 0x8#4, 0x2#4, 0xD#4, 0x2#4, 0x2#4, 0x0#4]

/-- SBOX, the row 0xC0 of 40_tables.md R142. -/
def sboxRowC : List Nibble :=
  [0x4#4, 0xF#4, 0x8#4, 0x5#4, 0x9#4, 0x6#4, 0x8#4, 0x6#4, 0xB#4, 0xA#4, 0xB#4, 0xF#4, 0x0#4, 0x7#4, 0x2#4, 0x8#4]

/-- SBOX, the row 0xD0 of 40_tables.md R142. -/
def sboxRowD : List Nibble :=
  [0xC#4, 0x7#4, 0x3#4, 0xA#4, 0x1#4, 0x4#4, 0x2#4, 0x5#4, 0xF#4, 0x7#4, 0xA#4, 0xC#4, 0xE#4, 0x5#4, 0x9#4, 0x3#4]

/-- SBOX, the row 0xE0 of 40_tables.md R142. -/
def sboxRowE : List Nibble :=
  [0xE#4, 0x7#4, 0x1#4, 0x2#4, 0xE#4, 0x1#4, 0xF#4, 0x4#4, 0xA#4, 0x6#4, 0xC#4, 0x6#4, 0xF#4, 0x4#4, 0x3#4, 0x0#4]

/-- SBOX, the row 0xF0 of 40_tables.md R142. -/
def sboxRowF : List Nibble :=
  [0xC#4, 0x0#4, 0x3#4, 0x6#4, 0xF#4, 0x8#4, 0x7#4, 0xB#4, 0x2#4, 0xD#4, 0xC#4, 0x6#4, 0xA#4, 0xA#4, 0x8#4, 0xD#4]

/-- The Substitution Table SBOX, 256 nibbles (40_tables.md R142). PRESUMED: the contents are the spec's general
knowledge; `sboxConfirmed` lists the indices that the source's own vectors confirm (R146; log 10). -/
def sboxTable : List Nibble :=
  sboxRow0 ++ sboxRow1 ++ sboxRow2 ++ sboxRow3 ++ sboxRow4 ++ sboxRow5 ++ sboxRow6 ++ sboxRow7 ++
    sboxRow8 ++ sboxRow9 ++ sboxRowA ++ sboxRowB ++ sboxRowC ++ sboxRowD ++ sboxRowE ++ sboxRowF

/-- `SBOX[i]` (00_scope.md R14). -/
def sbox (i : Nat) : Nibble := sboxTable.getD i 0#4

/-- The evidence grade of SBOX (40_tables.md R146): the 58 indices whose entries the source's vectors confirm. The
other 198 entries rest on general knowledge alone. -/
def sboxConfirmed : List Nat :=
  [0x00, 0x07, 0x08, 0x0B, 0x0D, 0x0F, 0x15, 0x16, 0x26, 0x27, 0x2E, 0x34,
    0x41, 0x42, 0x43, 0x49, 0x4D, 0x4F, 0x50, 0x52, 0x53, 0x54, 0x57, 0x5E,
    0x68, 0x6A, 0x6C, 0x6E, 0x71, 0x75, 0x76, 0x79, 0x82, 0x83, 0x88, 0x9A,
    0xA2, 0xA6, 0xAA, 0xAB, 0xB1, 0xB3, 0xB4, 0xB6, 0xBB, 0xBF, 0xC1, 0xC5,
    0xC7, 0xCD, 0xD1, 0xDE, 0xE1, 0xE4, 0xE9, 0xF6, 0xFB, 0xFC]

end Sys2Proof.Machine
end

