-- ==== Sys2Proof/Machine/Operands.lean ====
section
/-! DEFINITION. The register window (20_memory.md R71): which register holds an offset, what a byte of it reads as
(R82, ReadByte), and what a stored byte changes. -/

namespace Sys2Proof.Machine

/-- The registers of the window (20_memory.md R71), and what is reserved (R72). -/
inductive Region where
  | cmd
  | status
  | id
  | cap
  | salt
  | key
  | digest
  | out
  | block
  | ktab
  | sbox
  | inbuf
  | reserved
deriving DecidableEq, Repr

/-- One register of the window map: its offset, its size in bytes, and which register it is. -/
structure WindowEntry where
  base : Nat
  size : Nat
  region : Region
deriving DecidableEq, Repr

/-- The window map (20_memory.md R71). What no entry covers is reserved (R72). -/
def windowMap : List WindowEntry :=
  [⟨0x0000, 4, .cmd⟩, ⟨0x0004, 4, .status⟩, ⟨0x0008, 4, .id⟩, ⟨0x000C, 4, .cap⟩, ⟨0x0010, 4, .salt⟩,
    ⟨0x0018, 8, .key⟩, ⟨0x0020, 16, .digest⟩, ⟨0x0030, 8, .out⟩, ⟨0x0040, 32, .block⟩, ⟨0x0100, 32, .ktab⟩,
    ⟨0x0200, 256, .sbox⟩, ⟨inbufBase, Config.inBytes, .inbuf⟩]

/-- The register of the first entry that covers the offset. -/
def regionIn : List WindowEntry → Nat → Region
  | [], _ => .reserved
  | e :: rest, o => if e.base ≤ o ∧ o - e.base < e.size then e.region else regionIn rest o

/-- Which register the byte at an offset belongs to (20_memory.md R71). -/
def regionOf (o : Nat) : Region := regionIn windowMap o

/-- The RW data registers (20_memory.md R80). -/
def Region.writable : Region → Bool
  | .salt => true
  | .key => true
  | .digest => true
  | .block => true
  | .inbuf => true
  | .cmd => false
  | .status => false
  | .id => false
  | .cap => false
  | .out => false
  | .ktab => false
  | .sbox => false
  | .reserved => false

/-- The registers that read as an unspecified value while BUSY = 1 (70_reset_and_hazards.md R285). -/
def Region.hazardous : Region → Bool
  | .digest => true
  | .out => true
  | .block => true
  | .cmd => false
  | .status => false
  | .id => false
  | .cap => false
  | .salt => false
  | .key => false
  | .ktab => false
  | .sbox => false
  | .inbuf => false
  | .reserved => false

/-- Whether a read at the offset returns an unspecified value in this state (R285). -/
def resultHazard (o : Nat) (s : State) : Bool := busy s && (regionOf o).hazardous

/-- The register CAP (10_state.md R40). -/
def capValue : Word := BitVec.ofNat 32 Config.inBytes

/-- ReadByte of 20_memory.md R82 where no result hazard stands in the way: the byte at an offset. `none` is an INBUF
byte that nothing has written (R90). -/
def windowByte (o : Nat) (s : State) : Option Byte :=
  match regionOf o with
  | .cmd => some 0#8
  | .status => some (wordByte (status s) (o - 0x4))
  | .id => some (wordByte Config.idValue (o - 0x8))
  | .cap => some (wordByte capValue (o - 0xC))
  | .salt => some (byteAt s.salt (o - 0x10))
  | .key => some (byteAt s.key (o - 0x18))
  | .digest => some (byteAt s.digest (o - 0x20))
  | .out => some (byteAt s.out (o - 0x30))
  | .block => some (byteAt s.block (o - 0x40))
  | .ktab => some (kt (o - 0x100))
  | .sbox => some ((sbox (o - 0x200)).zeroExtend 8)
  | .inbuf => cellFind s.inbuf o
  | .reserved => some 0#8

/-- ReadByte of 20_memory.md R82: an unspecified value is the `k`-th free value (R285, log 2). -/
def readByte (k o : Nat) (s : State) : Option Byte :=
  if resultHazard o s then some (Config.unspecifiedByte k) else windowByte o s

/-- The store of one byte to an RW data register (20_memory.md R75, R82); for INBUF it sets the written-mark (R50). A
byte of any other register stays as it is. -/
def storeByte (o : Nat) (b : Byte) (s : State) : State :=
  match regionOf o with
  | .salt => { s with salt := setByte s.salt (o - 0x10) b }
  | .key => { s with key := setByte s.key (o - 0x18) b }
  | .digest => { s with digest := setByte s.digest (o - 0x20) b }
  | .block => { s with block := setByte s.block (o - 0x40) b }
  | .inbuf => { s with inbuf := cellInsert o b s.inbuf }
  | .cmd => s
  | .status => s
  | .id => s
  | .cap => s
  | .out => s
  | .ktab => s
  | .sbox => s
  | .reserved => s

/-- The stores of consecutive bytes from an offset on (20_memory.md R75). -/
def storeBytes : Nat → List Byte → State → State
  | _, [], s => s
  | o, b :: bs, s => storeBytes (o + 1) bs (storeByte o b s)

/-- `INBUF[0..len)`, STRETCH's operand (41_stretcher.md R156): `none` if a byte of it is unwritten. -/
def inbufBytes (len : Nat) (s : State) : Option (List Byte) := cellRun s.inbuf inbufBase len

/-- Where a host address lies in the window, if it does (20_memory.md R70: the base is the platform's; log 13). -/
def windowOffset (address : Nat) : Option Offset :=
  if Config.windowBase ≤ address ∧ address < Config.windowBase + 65536 then
    some (BitVec.ofNat 16 (address - Config.windowBase))
  else none

end Sys2Proof.Machine
end

