-- ==== Sys2Proof/Machine/Ops.lean ====
section
/-! DEFINITION. The shared operations: presenting a command (44_control.md R210), the part of the completion step
that all commands share (R211), the host's transactions (20_memory.md R82), and reset (70_reset_and_hazards.md
R280). Recording an error, the spec's only exception mechanism, is `raiseError` in Flags.lean. -/

namespace Sys2Proof.Machine

/-- Whether the engine rejects a command with E_LENGTH (60_exceptions.md R243). -/
def tooLong : Instr → Bool
  | .nop => false
  | .stretch len => decide (Config.inBytes < len)
  | .diffuse => false
  | .cipher => false

/-- Acceptance (44_control.md R210): PENDING holds the command, so BUSY = 1, and DONE is cleared. The number of steps
until completion is a free value (R214, 70_reset_and_hazards.md R289; log 3). -/
def acceptCommand (i : Instr) (s : State) : State :=
  { s with pending := some i, done := false, delay := Config.latency s.draws, draws := s.draws + 1 }

/-- Rejection (60_exceptions.md R247): DONE is set and the error is recorded; nothing else changes. -/
def rejectCommand (e : ErrorCode) (s : State) : State := raiseError e { s with done := true }

/-- PresentCommand (44_control.md R210), with the priority of 60_exceptions.md R246: busy, then illegal, then
length. -/
def presentCommand (w : Word) (s : State) : State :=
  if busy s then raiseError .busy s
  else
    match decode w with
    | .error _ => rejectCommand .illegal s
    | .ok i => if tooLong i then rejectCommand .length s else acceptCommand i s

/-- The last line of Complete() (44_control.md R211): PENDING <- none, so BUSY <- 0, and DONE <- 1. -/
def completed (s : State) : State := { s with pending := none, done := true }

/-- The effect of HostWrite (20_memory.md R82) at an offset the width allows. `whole` is a 32-bit write; a byte write
carries v[7:0]. -/
def windowWrite (whole : Bool) (o : Nat) (v : Word) (s : State) : State :=
  match regionOf o with
  | .cmd => if whole then presentCommand v s else s
  | .status => if whole || o == 7 then statusW1C v s else s
  | r =>
    if r.writable then
      if busy s then raiseError .busy s
      else storeBytes o (if whole then wordBytes v else [v.truncate 8]) s
    else s

/-- HostWrite (20_memory.md R82). Misaligned accesses and other widths are refused (R77, R73; log 12). -/
def hostWrite (width : Width) (off : Offset) (v : Word) (s : State) : Host.Outcome State Fault Refusal :=
  match width with
  | .w8 => .next (windowWrite false off.toNat v s)
  | .w32 => if off.toNat % 4 = 0 then .next (windowWrite true off.toNat v s) else .refused .misalignedAccess
  | .w16 => .refused .unsupportedWidth
  | .w64 => .refused .unsupportedWidth

/-- A read changes nothing (20_memory.md R79) but the model's count of the free values it has drawn. -/
def drawn (o n : Nat) (s : State) : State := if resultHazard o s then { s with draws := s.draws + n } else s

/-- HostRead (20_memory.md R82): the value read and the state after the read. A byte is zero-extended. -/
def hostRead (width : Width) (off : Offset) (s : State) : Host.Outcome (Word × State) Fault Refusal :=
  match width with
  | .w8 =>
    match readByte s.draws off.toNat s with
    | some b => .next (b.zeroExtend 32, drawn off.toNat 1 s)
    | none => .fault .inbufReadUnwritten
  | .w32 =>
    if off.toNat % 4 = 0 then
      match readByte s.draws off.toNat s, readByte (s.draws + 1) (off.toNat + 1) s,
          readByte (s.draws + 2) (off.toNat + 2) s, readByte (s.draws + 3) (off.toNat + 3) s with
      | some b0, some b1, some b2, some b3 => .next (wordOfBytes b0 b1 b2 b3, drawn off.toNat 4 s)
      | _, _, _, _ => .fault .inbufReadUnwritten
    else .refused .misalignedAccess
  | .w16 => .refused .unsupportedWidth
  | .w64 => .refused .unsupportedWidth

/-- Reset (70_reset_and_hazards.md R280, R281): every engine register takes its reset value, a pending command is
abandoned with none of its results, INBUF becomes unwritten. The host agent, the resets still to come and the count
of free values are not the engine's and stay. -/
def engineReset (s : State) : State :=
  { s with
    salt := State.reset.salt
    key := State.reset.key
    digest := State.reset.digest
    out := State.reset.out
    block := State.reset.block
    inbuf := State.reset.inbuf
    pending := State.reset.pending
    done := State.reset.done
    err := State.reset.err
    errcode := State.reset.errcode
    delay := State.reset.delay }

end Sys2Proof.Machine
end

