-- ==== Sys2Proof/Machine/Agents.lean ====
section
/-! DEFINITION. The host agent's step (30_encoding.md R117) and whose step comes next (00_scope.md R17; 20_memory.md
R83, R84; 70_reset_and_hazards.md R290). -/

namespace Sys2Proof.Machine

/-- The value of a host register; a name that the host has not read into yet is 0 (log 7). -/
def hostName (s : State) (name : Nat) : Word := (cellFind s.names name).getD 0#32

/-- The host goes on with the next line. -/
def nextLine (s : State) : State := { s with line := s.line + 1 }

/-- The host's `BNZ name, mask, label` (R117). -/
def hostBranch (name : Nat) (mask : Word) (label : Nat) (s : State) : Host.Outcome State Fault Refusal :=
  if hostName s name &&& mask = 0#32 then .next (nextLine s)
  else
    match labelLine label 0 s.program with
    | some k => .next { s with line := k }
    | none => .refused .unknownLabel

/-- What a line writes to the window, if it writes: the width, the offset and the value. -/
def lineWrite (s : State) : HostOp → Option (Width × Offset × Word)
  | .wr width off v => some (width, off, v)
  | .wrXor width off name v => some (width, off, hostName s name ^^^ v)
  | .rd _ _ _ => none
  | .bnz _ _ _ => none

/-- A line that writes (R117). -/
def hostStore (width : Width) (off : Offset) (v : Word) (s : State) : Host.Outcome State Fault Refusal :=
  match hostWrite width off v s with
  | .next t => .next (nextLine t)
  | .fault f => .fault f
  | .refused r => .refused r

/-- One line of the host's program (R117). -/
def hostOp (op : HostOp) (s : State) : Host.Outcome State Fault Refusal :=
  match op with
  | .wr width off v => hostStore width off v s
  | .wrXor width off name v => hostStore width off (hostName s name ^^^ v) s
  | .rd width off name =>
    match hostRead width off s with
    | .next (v, t) => .next (nextLine { t with names := cellInsert name v t.names })
    | .fault f => .fault f
    | .refused r => .refused r
  | .bnz name mask label => hostBranch name mask label s

/-- The host's step. A host whose program has ended does nothing (log 5). -/
def hostStep (s : State) : Host.Outcome State Fault Refusal :=
  match s.program[s.line]? with
  | some l => hostOp l.op s
  | none => .next s

/-- Whose step comes next. -/
inductive Turn where
  | reset
  | engine (i : Instr)
  | host
deriving DecidableEq, Repr

/-- Whether a reset pulse arrives now. -/
def resetDue (s : State) : Bool := s.resetAfter.head? == some 0

/-- The interleaving (log 5): a reset that is due comes first; then the completion step, once the pending command's
delay has run out; else the host. -/
def turn (s : State) : Turn :=
  if resetDue s then .reset
  else
    match s.pending with
    | some i => if s.delay = 0 then .engine i else .host
    | none => .host

/-- The time of the next reset pulse, one step nearer. -/
def resetsNearer : List Nat → List Nat
  | [] => []
  | k :: rest => (k - 1) :: rest

/-- One step passes for the latency and for the next reset pulse. -/
def tick (s : State) : State := { s with delay := s.delay - 1, resetAfter := resetsNearer s.resetAfter }

/-- The reset step: the pulse is used up. -/
def takeReset (s : State) : State := engineReset { s with resetAfter := s.resetAfter.tail }

/-- The state in which a command word is the very next thing that runs. The engine fetches nothing (10_state.md R49):
a word that it accepts runs from PENDING, so it stands there, decoded, with its delay run out. A word that it rejects
never reaches PENDING: it stands as the host's next CMD write, whose step rejects it. No reset is due (log 8). -/
def commandNext (w : Word) (s : State) : State :=
  match decode w with
  | .ok i =>
    if tooLong i then
      { s with pending := none, delay := 0, resetAfter := [], program := [plainLine (.wr .w32 0#16 w)], line := 0 }
    else { s with pending := some i, delay := 0, resetAfter := [] }
  | .error _ =>
    { s with pending := none, delay := 0, resetAfter := [], program := [plainLine (.wr .w32 0#16 w)], line := 0 }

end Sys2Proof.Machine
end

