-- ==== Sys2Proof/Machine/Diffuse.lean ====
section
/-! DEFINITION. The Diffusion Hash (42_diffusion.md R170 to R174) and DIFFUSE (R175). -/

namespace Sys2Proof.Machine

/-- Salting (R171): each byte of the block XOR `salt[position mod 4]`. -/
def salted (salt : Salt) (block : Block) : Block :=
  Vector.ofFn fun p : Fin 32 => byteAt block p ^^^ byteAt salt (p % 4)

/-- The reference byte of step `i` (R172): `W[(last + i) mod 32]`, read before the step writes `W[i]` (R173). -/
def referenceByte (w : Block) (last : Byte) (i : Nat) : Byte := byteAt w ((last.toNat + i) % 32)

/-- `new_value` of step `i` (R172): `(working[i] + last) XOR (reference - KT[i])`, all modulo 256. -/
def newValue (w : Block) (last : Byte) (i : Nat) : Byte := (byteAt w i + last) ^^^ (referenceByte w last i - kt i)

/-- Step `i` of a round (R172) on the working buffer and `last`. -/
def roundStep (p : Block × Byte) (i : Nat) : Block × Byte :=
  (setByte p.1 i (newValue p.1 p.2 i), p.2 + newValue p.1 p.2 i)

/-- One round: positions 0..31 in increasing order (R172, R173). -/
def round (p : Block × Byte) : Block × Byte := (List.range 32).foldl roundStep p

/-- The working buffer after both rounds; `last` starts at 0 and is carried from the first round into the second
(R172). -/
def workingBuffer (salt : Salt) (block : Block) : Block := (round (round (salted salt block, 0#8))).1

/-- Output byte `k` of nibble folding (R174): low nibble from `W[2k]`, high nibble from `W[2k+1]`. -/
def foldedByte (w : Block) (k : Nat) : Byte :=
  (sbox (byteAt w (2 * k)).toNat).zeroExtend 8 ||| ((sbox (byteAt w (2 * k + 1)).toNat).zeroExtend 8 <<< 4)

/-- `diffuse(salt, block)` (R170). -/
def diffuse (salt : Salt) (block : Block) : Digest :=
  Vector.ofFn fun k : Fin 16 => foldedByte (workingBuffer salt block) k

/-- DIFFUSE (R175), the completion step: `reg[DIGEST] <- diffuse(reg[SALT], reg[BLOCK])`. -/
def execDiffuse (s : State) : Host.Outcome State Fault Refusal :=
  .next (completed { s with digest := diffuse s.salt s.block })

end Sys2Proof.Machine
end

