-- ==== Sys2Proof/Machine/Stretch.lean ====
section
/-! DEFINITION. The Input Stretcher (41_stretcher.md R150 to R155) and STRETCH (R156). -/

namespace Sys2Proof.Machine

/-- Trimming (R151): the declared length less the zero bytes at its end. -/
def trimmedLength (inp : List Byte) : Nat → Nat
  | 0 => 0
  | n + 1 => if inp.getD n 0#8 = 0#8 then trimmedLength inp n else n + 1

/-- The first `k` full blocks XORed together (R152): byte `32 * j + s` of the input into position `s`. -/
def foldBlocks (inp : List Byte) : Nat → Block
  | 0 => zeroBytes 32
  | k + 1 => Vector.ofFn fun s : Fin 32 => byteAt (foldBlocks inp k) s ^^^ inp.getD (32 * k + s) 0#8

/-- One position of the final pass (R153): the tail cursor and the output before it, and the output position. -/
def tailStep (inp : List Byte) (d t : Nat) (p : Nat × Block) (s : Nat) : Nat × Block :=
  if p.1 = t then (0, setByte p.2 s (byteAt p.2 s ^^^ kt s))
  else (p.1 + 1, setByte p.2 s (byteAt p.2 s ^^^ inp.getD (d + p.1) 0#8))

/-- The final pass over positions 0..31 in order, with the cursor at 0 (R153). It always runs, for an empty tail too
(R154; 93_implementation_defined.md I3 is not followed). -/
def tailPass (inp : List Byte) (d t : Nat) (out : Block) : Block :=
  ((List.range 32).foldl (tailStep inp d t) (0, out)).2

/-- `stretch(in, L)` (R150), for `L` at most the input's length. With `n` the trimmed length, the loop over full
blocks leaves `d = 32 * (n / 32)` and a tail of `n % 32` bytes (R152). -/
def stretch (inp : List Byte) (declared : Nat) : Block :=
  let n := trimmedLength inp declared
  tailPass inp (32 * (n / 32)) (n % 32) (foldBlocks inp (n / 32))

/-- STRETCH (R156), the completion step: `reg[BLOCK] <- stretch(reg[INBUF][0..LEN), LEN)`. An unwritten byte below
LEN is the model's fault (U2). Acceptance leaves no LEN above P_IN_BYTES in PENDING (R243); in a state that has one
all the same, the bytes above INBUF do not exist and the step faults the same way (log 14). -/
def execStretch (len : Nat) (s : State) : Host.Outcome State Fault Refusal :=
  if len ≤ Config.inBytes then
    match inbufBytes len s with
    | some bytes => .next (completed { s with block := stretch bytes len })
    | none => .fault .stretchUnwritten
  else .fault .stretchUnwritten

end Sys2Proof.Machine
end

