-- ==== Sys2Proof/Machine/Cipher.lean ====
section
/-! DEFINITION. The Block Cipher (43_cipher.md R190 to R194) and CIPHER (R195). -/

namespace Sys2Proof.Machine

/-- The half `key[4j..4j+4)` of the cipher key (R192). -/
def keyHalf (key : Key) (j : Nat) : Salt := Vector.ofFn fun p : Fin 4 => byteAt key (4 * j + p)

/-- Expansion (R191): the plaintext stretched with declared length 16, trimming included. -/
def expand (pt : Digest) : Block := stretch pt.toList 16

/-- `temp` (R192): the two digests of the expanded plaintext, one under each key half, concatenated. -/
def cipherTemp (key : Key) (pt : Digest) : Block :=
  (diffuse (keyHalf key 0) (expand pt) ++ diffuse (keyHalf key 1) (expand pt) : Vector Byte (16 + 16))

/-- Output byte `i` of the fold (R193). -/
def cipherFold (temp : Block) (i : Nat) : Byte :=
  byteAt temp i ^^^ byteAt temp (31 - i) ^^^ byteAt temp (15 - i) ^^^ byteAt temp (16 + i)

/-- `cipher(key, pt)` (R190). -/
def cipher (key : Key) (pt : Digest) : LoginHash := Vector.ofFn fun i : Fin 8 => cipherFold (cipherTemp key pt) i

/-- CIPHER (R195), the completion step: `reg[OUT] <- cipher(reg[KEY], reg[DIGEST])`. -/
def execCipher (s : State) : Host.Outcome State Fault Refusal :=
  .next (completed { s with out := cipher s.key s.digest })

end Sys2Proof.Machine
end

