-- ==== Sys2Proof/Machine/Control.lean ====
section
/-! DEFINITION. NOP (44_control.md R212). -/

namespace Sys2Proof.Machine

/-- NOP (R212), the completion step: no data register changes. -/
def execNop (s : State) : Host.Outcome State Fault Refusal := .next (completed s)

end Sys2Proof.Machine
end

