-- ==== Sys2Proof/Machine/Dispatch.lean ====
section
/-! DEFINITION. The completion step of each command (44_control.md R211, Complete()). -/

namespace Sys2Proof.Machine

def exec (i : Instr) (s : State) : Host.Outcome State Fault Refusal :=
  match i with
  | .nop => Sys2Proof.Machine.execNop s
  | .stretch len => Sys2Proof.Machine.execStretch len s
  | .diffuse => Sys2Proof.Machine.execDiffuse s
  | .cipher => Sys2Proof.Machine.execCipher s

end Sys2Proof.Machine
end

