-- ==== Sys2Proof/Machine/Step.lean ====
section
/-! DEFINITION. One step of the whole system: a reset, the engine's completion step, or one line of the host's
program (20_memory.md R83, 70_reset_and_hazards.md R290). -/

namespace Sys2Proof.Machine

def step (s : State) : Host.Outcome State Fault Refusal :=
  match turn s with
  | .reset => .next (takeReset s)
  | .engine i => exec i (tick s)
  | .host => hostStep (tick s)

/-- `s` with the command word of the low `nbits` bits of `w` as the next thing to run (`commandNext`; log 8). -/
def State.withFetchWord (s : State) (nbits w : Nat) : State := commandNext (BitVec.ofNat 32 (w % 2 ^ nbits)) s

end Sys2Proof.Machine
end

