-- ==== Sys2Proof/Machine/Assembler.lean ====
section
/-! DEFINITION. The text of a command (30_encoding.md R116): the assembler and the disassembler. They describe the
notation of the spec's programs, not the hardware (92_eei_decisions.md D14). -/

namespace Sys2Proof.Machine

/-- A letter in upper case; R116: mnemonics are case-insensitive. -/
def upper (c : Char) : Char := if 'a' ≤ c ∧ c ≤ 'z' then Char.ofNat (c.toNat - 32) else c

/-- The value of a digit in a base up to 16. -/
def digitValue (base : Nat) (c : Char) : Option Nat :=
  let v :=
    if '0' ≤ c ∧ c ≤ '9' then c.toNat - '0'.toNat
    else if 'A' ≤ upper c ∧ upper c ≤ 'F' then (upper c).toNat - 'A'.toNat + 10
    else 16
  if v < base then some v else none

/-- The number that digits write after those already read. -/
def readDigits (base : Nat) : Nat → List Char → Option Nat
  | n, [] => some n
  | n, c :: rest =>
    match digitValue base c with
    | some v => readDigits base (base * n + v) rest
    | none => none

/-- A number in decimal, or after `0x` in hexadecimal (R116). -/
def readNumber : List Char → Option Nat
  | [] => none
  | ['0', 'x'] => none
  | '0' :: 'x' :: digits => readDigits 16 0 digits
  | digits => readDigits 10 0 digits

/-- The command that a line of text writes (R116). LEN must be in 0..65535. DESIGN CHOICE: one space before `#`
(log 16). -/
def assemble (text : List Char) : Option Instr :=
  let t := text.map upper
  if t = ['N', 'O', 'P'] then some .nop
  else if t = ['D', 'I', 'F', 'F', 'U', 'S', 'E'] then some .diffuse
  else if t = ['C', 'I', 'P', 'H', 'E', 'R'] then some .cipher
  else if t.take 9 = ['S', 'T', 'R', 'E', 'T', 'C', 'H', ' ', '#'] then
    match readNumber (text.drop 9) with
    | some n => if n ≤ 65535 then some (.stretch n) else none
    | none => none
  else none

/-- The character of a hexadecimal digit, in capitals. -/
def hexDigit (v : Nat) : Char := if v < 10 then Char.ofNat (48 + v) else Char.ofNat (55 + v)

/-- The `k` low hexadecimal digits of a number, the highest first. -/
def hexDigits : Nat → Nat → List Char
  | 0, _ => []
  | k + 1, n => hexDigits k (n / 16) ++ [hexDigit (n % 16)]

/-- The decimal digits of a number below `10 ^ k`, without leading zeros but for 0 itself. -/
def decDigits : Nat → Nat → List Char
  | 0, _ => []
  | k + 1, n => (if n / 10 = 0 then [] else decDigits k (n / 10)) ++ [hexDigit (n % 10)]

/-- The text of a command word (R116); an ILLEGAL word prints as `.word 0xXXXXXXXX`. -/
def disassemble (w : Word) : List Char :=
  match decode w with
  | .ok .nop => ['N', 'O', 'P']
  | .ok (.stretch len) => ['S', 'T', 'R', 'E', 'T', 'C', 'H', ' ', '#'] ++ decDigits 5 len
  | .ok .diffuse => ['D', 'I', 'F', 'F', 'U', 'S', 'E']
  | .ok .cipher => ['C', 'I', 'P', 'H', 'E', 'R']
  | .error _ => ['.', 'w', 'o', 'r', 'd', ' ', '0', 'x'] ++ hexDigits 8 w.toNat

end Sys2Proof.Machine
end

