-- ==== Sys2Proof/Machine/Adapters.lean ====
section
/-! DEFINITION. The Protocol Adapters (45_adapters.md), which are host command sequences and no commands
(00_scope.md R6), and the pseudo-instructions that spell the sequences (30_encoding.md R118). -/

namespace Sys2Proof.Machine

/-- The Object Salt of a 32-bit object identifier: its bytes, big-endian (20_memory.md R76, 45_adapters.md R220). -/
def objectSalt (id : Word) : Salt := #v[wordByte id 0, wordByte id 1, wordByte id 2, wordByte id 3]

/-- `StoredHash(id, pw)` (45_adapters.md R220). -/
def storedHash (id : Word) (pw : List Byte) : Digest := diffuse (objectSalt id) (stretch pw pw.length)

/-- `ClientLogin(id, key, pw)` (45_adapters.md R222). -/
def clientLogin (id : Word) (key : Key) (pw : List Byte) : LoginHash := cipher key (storedHash id pw)

/-- `ServerLogin(key, h)` (45_adapters.md R224). -/
def serverLogin (key : Key) (h : Digest) : LoginHash := cipher key h

/-- Authentication (45_adapters.md R226): the host's comparison, byte for byte; a mismatch is no fault (60_exceptions.md
R250). -/
def authenticated (client server : LoginHash) : Bool := decide (client = server)

/-- How many bytes the tail of the trimmed input has (45_adapters.md R228, step 3). -/
def longTailLength (pw : List Byte) (declared : Nat) : Nat := trimmedLength pw declared % 32

/-- The tail of the trimmed input, which the engine stretches (R228, steps 1 and 3). -/
def longTail (pw : List Byte) (declared : Nat) : List Byte :=
  (pw.drop (32 * (trimmedLength pw declared / 32))).take (longTailLength pw declared)

/-- `acc`, the XOR of the full blocks of the trimmed input, which the host computes itself (R228, step 2). -/
def longAcc (pw : List Byte) (declared : Nat) : Block := foldBlocks pw (trimmedLength pw declared / 32)

/-- The Input Stretcher for an input longer than INBUF, as a function (45_adapters.md R228): `acc` XORed into the
stretched tail. -/
def longStretch (pw : List Byte) (declared : Nat) : Block :=
  Vector.ofFn fun s : Fin 32 =>
    byteAt (stretch (longTail pw declared) (longTailLength pw declared)) s ^^^ byteAt (longAcc pw declared) s

/-- `CMD <command>` (30_encoding.md R118). -/
def cmdLines (i : Instr) : List HostLine := [plainLine (.wr .w32 0x0000#16 (encode i))]

/-- `WAIT` (R118), with the label and the host register that it uses. -/
def waitLines (label st : Nat) : List HostLine :=
  [⟨[label], .rd .w32 0x0004#16 st⟩, plainLine (.bnz st 0x1#32 label)]

/-- `SETSALT id` (R118). -/
def setSaltLines (id : Word) : List HostLine := [plainLine (.wr .w32 0x0010#16 id)]

/-- The word of the bytes `4j..4j+3` of an array (R118). -/
def wordOf {n : Nat} (v : Vector Byte n) (j : Nat) : Word :=
  wordOfBytes (byteAt v (4 * j)) (byteAt v (4 * j + 1)) (byteAt v (4 * j + 2)) (byteAt v (4 * j + 3))

/-- Word writes of a byte array to the register at `base`, in rising order. -/
def setArrayLines {n : Nat} (base : Nat) (v : Vector Byte n) : List HostLine :=
  (List.range (n / 4)).map fun j => plainLine (.wr .w32 (BitVec.ofNat 16 (base + 4 * j)) (wordOf v j))

/-- `SETKEY` (R118). -/
def setKeyLines (key : Key) : List HostLine := setArrayLines 0x0018 key

/-- `SETDIGEST` (R118). -/
def setDigestLines (h : Digest) : List HostLine := setArrayLines 0x0020 h

/-- `SETBLOCK` (R118). -/
def setBlockLines (b : Block) : List HostLine := setArrayLines 0x0040 b

/-- `LOADIN s` (R118): one byte write for each byte. DESIGN CHOICE, unsafe: R118 sets no limit on the string, and from
byte 32768 on `0x8000 + i` leaves the 16-bit window; the model takes the offset modulo 65536 there (log 22). -/
def loadInLines (s : List Byte) : List HostLine :=
  s.zipIdx.map fun p => plainLine (.wr .w8 (BitVec.ofNat 16 (inbufBase + p.2)) (p.1.zeroExtend 32))

/-- `CLRST` (R118): clears DONE and ERR. -/
def clrstLines : List HostLine := [plainLine (.wr .w32 0x0004#16 0x00000006#32)]

/-- Word reads of `words` words from `base` on, into consecutive host registers. -/
def readLines (base words name : Nat) : List HostLine :=
  (List.range words).map fun j => plainLine (.rd .w32 (BitVec.ofNat 16 (base + 4 * j)) (name + j))

/-- `RDDIGEST` (R118). -/
def rdDigestLines (name : Nat) : List HostLine := readLines 0x0020 4 name

/-- `RDOUT` (R118). -/
def rdOutLines (name : Nat) : List HostLine := readLines 0x0030 2 name

/-- The host's acts of 45_adapters.md R228, step 3: it loads the tail into INBUF and presents STRETCH over it. -/
def longTailLines (pw : List Byte) (declared : Nat) : List HostLine :=
  loadInLines (longTail pw declared) ++ cmdLines (.stretch (longTailLength pw declared))

/-- The host's acts of R228, step 4: it reads BLOCK into the host registers from `name` on, XORs `acc` into what it
read, and writes BLOCK back. -/
def xorBlockLines (acc : Block) (name : Nat) : List HostLine :=
  readLines 0x0040 8 name ++
    (List.range 8).map fun j =>
      plainLine (.wrXor .w32 (BitVec.ofNat 16 (0x0040 + 4 * j)) (name + j) (wordOf acc j))

/-- The host program for `stretch(pw, declared)` of an input of any length (R228, steps 3 and 4; the host trims and
folds, steps 1 and 2, before it runs). The WAIT uses label 1 and the host register 0. -/
def longStretchProgram (pw : List Byte) (declared : Nat) : List HostLine :=
  longTailLines pw declared ++ waitLines 1 0 ++ xorBlockLines (longAcc pw declared) 1

/-- The engine sequence for StoredHash without its final RDDIGEST (45_adapters.md R221). The WAITs use labels 1 and 2
and the host register 0. -/
def storedHashLines (id : Word) (pw : List Byte) : List HostLine :=
  loadInLines pw ++ setSaltLines id ++ cmdLines (.stretch pw.length) ++ waitLines 1 0 ++ cmdLines .diffuse ++
    waitLines 2 0

/-- The host program for StoredHash (45_adapters.md R221). -/
def storedHashProgram (id : Word) (pw : List Byte) : List HostLine := storedHashLines id pw ++ rdDigestLines 1

/-- The host program for ClientLogin (45_adapters.md R223). -/
def clientLoginProgram (id : Word) (key : Key) (pw : List Byte) : List HostLine :=
  storedHashLines id pw ++ setKeyLines key ++ cmdLines .cipher ++ waitLines 3 0 ++ rdOutLines 1

/-- The host program for ServerLogin (45_adapters.md R225). -/
def serverLoginProgram (key : Key) (h : Digest) : List HostLine :=
  setDigestLines h ++ setKeyLines key ++ cmdLines .cipher ++ waitLines 1 0 ++ rdOutLines 1

end Sys2Proof.Machine
end

