-- ==== Sys2Proof/Safety.lean ====
section
/-! DEFINITION. What counts as a good state, a safe step and a safe run, and the terms that statements about the
machine use. -/

namespace Sys2Proof

open Machine

/-- The states that the spec describes. -/
structure Machine.State.Inv (s : State) : Prop where
  /-- INBUF's bytes are in canonical form and lie in INBUF (20_memory.md R71, 10_state.md R36). -/
  inbuf : Memory.wf s.inbuf = true
  /-- When ERR = 0, ERRCODE is 0 (10_state.md R44). -/
  noCode : s.err = false → s.errcode = 0#4
  /-- When ERR = 1, ERRCODE is one of the codes 1, 2 and 3; 4 to 15 are never produced (60_exceptions.md R241). -/
  someCode : s.err = true → s.errcode = 1#4 ∨ s.errcode = 2#4 ∨ s.errcode = 3#4
  /-- An accepted STRETCH has LEN at most P_IN_BYTES (60_exceptions.md R243). -/
  fits : ∀ i, s.pending = some i → tooLong i = false
  /-- PENDING holds a command of 30_encoding.md R113. -/
  encodable : ∀ i, s.pending = some i → i.wellFormed = true
  /-- While a command is pending DONE is 0: acceptance cleared it, and only the completion step or a rejection, which
  needs BUSY = 0, sets it (10_state.md R43). -/
  notDone : s.pending.isSome = true → s.done = false
  /-- The host's names are in canonical form (the model's own). -/
  names : cellsRise 0 s.names = true

/-- `n` steps, each of which must answer a next state. -/
def runSteps : Nat → State → Host.Outcome State Fault Refusal
  | 0, s => .next s
  | n + 1, s =>
    match step s with
    | .next t => runSteps n t
    | .fault f => .fault f
    | .refused r => .refused r

/-- The host lines one after another, each of which must answer a next state, with no other agent's step between
them. -/
def runLines : List HostLine → State → Host.Outcome State Fault Refusal
  | [], s => .next s
  | l :: rest, s =>
    match hostOp l.op s with
    | .next t => runLines rest t
    | .fault f => .fault f
    | .refused r => .refused r

/-- The line clears the error record: it writes STATUS, as a word or as the byte at 0x0007, with bit 2 set
(10_state.md R45). -/
def clearsError (s : State) (op : HostOp) : Bool :=
  match lineWrite s op with
  | some (width, off, v) =>
    ((width == .w32 && off == 0x0004#16) || (width == .w8 && off == 0x0007#16)) && v.getLsbD 2
  | none => false

/-- The host's next line keeps the required wait (70_reset_and_hazards.md R286) in this state: while BUSY = 1 it
writes nothing but STATUS, read-only or reserved offsets, and reads no BLOCK, DIGEST or OUT. -/
def keepsWait (s : State) : HostOp → Bool
  | .wr _ off _ => !(busy s) || !((regionOf off.toNat).writable || regionOf off.toNat == .cmd)
  | .wrXor _ off _ _ => !(busy s) || !((regionOf off.toNat).writable || regionOf off.toNat == .cmd)
  | .rd _ off _ => !(busy s) || !(regionOf off.toNat).hazardous
  | .bnz _ _ _ => true

/-- The data registers of the engine are the same (10_state.md R31 to R36). -/
def sameData (s t : State) : Prop :=
  t.salt = s.salt ∧ t.key = s.key ∧ t.digest = s.digest ∧ t.out = s.out ∧ t.block = s.block ∧ t.inbuf = s.inbuf

/-- The host agent is the same. -/
def sameHost (s t : State) : Prop := t.program = s.program ∧ t.line = s.line ∧ t.names = s.names

/-- The model's own schedule and count of free values are the same. -/
def sameSchedule (s t : State) : Prop := t.delay = s.delay ∧ t.draws = s.draws ∧ t.resetAfter = s.resetAfter

/-- Two states hold the same operands of a command (20_memory.md R91). -/
def operandsAgree : Instr → State → State → Prop
  | .nop, _, _ => True
  | .stretch len, s, t => ∀ k, k < len → cellFind s.inbuf (inbufBase + k) = cellFind t.inbuf (inbufBase + k)
  | .diffuse, s, t => s.salt = t.salt ∧ s.block = t.block
  | .cipher, s, t => s.key = t.key ∧ s.digest = t.digest

/-- The bytes of a command's result register (30_encoding.md R113, column "writes"). -/
def resultOf : Instr → State → List Byte
  | .nop, _ => []
  | .stretch _, s => s.block.toList
  | .diffuse, s => s.digest.toList
  | .cipher, s => s.out.toList

/-- The register of the window that a command's completion writes (30_encoding.md R113, column "writes"). -/
def resultRegion : Instr → Option Region
  | .nop => none
  | .stretch _ => some .block
  | .diffuse => some .digest
  | .cipher => some .out

/-- INBUF holds the bytes from its byte 0 on, all of them written (10_state.md R36, R50). -/
def inbufHolds (bytes : List Byte) (s : State) : Prop :=
  ∀ k, k < bytes.length → cellFind s.inbuf (inbufBase + k) = some (bytes.getD k 0#8)

/-- ERRCODE after an error with this code: the first error since ERR was 0 is kept (60_exceptions.md R245). -/
def keptCode (s : State) (e : ErrorCode) : BitVec 4 := if s.err then s.errcode else e.code

end Sys2Proof
end

