-- ==== Sys2Proof/Certificates/Slice0/Obligations.lean ====
section
/-! DEFINITION. The statements for the provers. Each docstring names the rule of spec/ it formalises. -/

open Sys2Proof Sys2Proof.Machine

/-! The command word (30_encoding.md). -/

/-- R110, R116: every well-formed command decodes back from its word, and from its word's bytes on the bus. -/
def Obligations.EncodedCommandDecodesBack : Prop :=
  ∀ (i : Instr) (rest : List Byte), i.wellFormed = true →
    decode (encode i) = .ok i ∧ decodeBytes (wordBytes (encode i) ++ rest) = .ok (i, rest)

/-- R114: a word that decodes is the encoding of what it decodes to, so no two words decode to one command. -/
def Obligations.DecodedWordEncodesBack : Prop :=
  ∀ (w : Word) (i : Instr), decode w = .ok i → i.wellFormed = true ∧ encode i = w

/-- R115, R242: a word is illegal exactly when OP is 4..15, or RSV is not 0, or OP is not 1 and LEN is not 0, and the
idle engine rejects an illegal word with E_ILLEGAL, changing nothing but DONE, ERR and ERRCODE. -/
def Obligations.IllegalWordsAreTheReservedOnes : Prop :=
  ∀ w : Word,
    ((∃ e, decode w = .error e) ↔
      4 ≤ w.toNat % 16 ∨ w.toNat / 16 % 4096 ≠ 0 ∨ (w.toNat % 16 ≠ 1 ∧ w.toNat / 65536 ≠ 0)) ∧
    ∀ s : State, busy s = false → (∃ e, decode w = .error e) →
      hostWrite .w32 0x0000#16 w s =
        .next { s with done := true, err := true, errcode := keptCode s .illegal }

/-- R114: every word fits exactly one row of the opcode map and decodes to that row's command, with LEN its bits
[31:16], or fits none and is illegal. -/
def Obligations.EveryWordFitsOneRowOrIsIllegal : Prop :=
  ∀ w : Word,
    (∃ i, decode w = .ok i ∧ opcodeRows.filter (fun r => r.fits w) = [opcodeRow i] ∧
      ∀ len, i = .stretch len → len = w.toNat / 65536) ∨
    ((∃ e, decode w = .error e) ∧ opcodeRows.filter (fun r => r.fits w) = [])

/-- R119: the spec's own encoding examples, and one word read from its bytes. -/
def Obligations.SpecExampleWordsDecode : Prop :=
  encode (.stretch 8) = 0x00080001#32 ∧ encode (.stretch 28) = 0x001C0001#32 ∧
  encode (.stretch 0) = 0x00000001#32 ∧ encode (.stretch 65535) = 0xFFFF0001#32 ∧
  decode 0x00000004#32 = .error .reservedOpcode ∧ decode 0x00010002#32 = .error .lengthNotZero ∧
  decode 0x00000011#32 = .error .reservedBits ∧
  decodeBytes [0x00#8, 0x08#8, 0x00#8, 0x01#8] = .ok (.stretch 8, []) ∧
  decode 0x00000000#32 = .ok .nop ∧ decode 0x00000002#32 = .ok .diffuse ∧ decode 0x00000003#32 = .ok .cipher

/-! The constant tables (40_tables.md). -/

/-- R143: 256 entries, each of the 16 nibbles exactly 16 times. -/
def Obligations.SubstitutionTableIsBalanced : Prop :=
  sboxTable.length = 256 ∧ ∀ v : Nibble, sboxTable.count v = 16

/-- R141, R144: the host reads both tables through the window, busy or not, and reading changes nothing. -/
def Obligations.TablesReadThroughTheWindow : Prop :=
  ∀ s : State,
    (∀ i, i < 32 → hostRead .w8 (BitVec.ofNat 16 (0x100 + i)) s = .next ((kt i).zeroExtend 32, s)) ∧
    (∀ i, i < 256 → hostRead .w8 (BitVec.ofNat 16 (0x200 + i)) s = .next ((sbox i).zeroExtend 32, s))

/-! The Input Stretcher (41_stretcher.md). -/

/-- R151: trimming removes exactly the zero bytes at the end of the declared length, and only the trimmed input takes
part in the result. -/
def Obligations.TrimmingStopsAtTheLastNonzeroByte : Prop :=
  ∀ (inp : List Byte) (declared : Nat),
    trimmedLength inp declared ≤ declared ∧
    (∀ i, trimmedLength inp declared ≤ i → i < declared → inp.getD i 0#8 = 0#8) ∧
    (0 < trimmedLength inp declared → inp.getD (trimmedLength inp declared - 1) 0#8 ≠ 0#8) ∧
    ((∀ i, i < declared → inp.getD i 0#8 = 0#8) → trimmedLength inp declared = 0) ∧
    stretch inp declared =
      stretch (inp.take (trimmedLength inp declared)) (trimmedLength inp declared)

/-- R152, R155: byte `s` of the stretched block, in closed form. The full blocks fold into position `s`, then the
final pass adds the Key Table byte at the end of each period of the tail, and a tail byte elsewhere. -/
def Obligations.StretchClosedForm : Prop :=
  ∀ (inp : List Byte) (declared s : Nat), s < 32 →
    byteAt (stretch inp declared) s =
      ((List.range (trimmedLength inp declared / 32)).map fun j => inp.getD (32 * j + s) 0#8).foldl (· ^^^ ·) 0#8 ^^^
      (if s % (trimmedLength inp declared % 32 + 1) = trimmedLength inp declared % 32 then kt s
        else inp.getD (32 * (trimmedLength inp declared / 32) + s % (trimmedLength inp declared % 32 + 1)) 0#8)

/-- R154: with an empty tail the final pass adds the Key Table at every position; an input that trims to nothing
gives the Key Table. -/
def Obligations.EmptyTailAddsTheKeyTable : Prop :=
  ∀ (inp : List Byte) (declared : Nat),
    (trimmedLength inp declared % 32 = 0 → ∀ s, s < 32 →
      byteAt (stretch inp declared) s = byteAt (foldBlocks inp (trimmedLength inp declared / 32)) s ^^^ kt s) ∧
    (trimmedLength inp declared = 0 → stretch inp declared = ktab)

/-- R159: zero bytes appended within the declared length change nothing. -/
def Obligations.StretchIgnoresAppendedZeros : Prop :=
  ∀ (x : List Byte) (k : Nat),
    stretch (x ++ List.replicate k 0#8) (x.length + k) = stretch x x.length

/-- R150: the stretcher reads only the bytes below the declared length. -/
def Obligations.StretchReadsOnlyTheDeclaredBytes : Prop :=
  ∀ (x y : List Byte) (declared : Nat), x.take declared = y.take declared → stretch x declared = stretch y declared

/-- 45_adapters.md R228: folding the full blocks in the host and stretching the tail alone gives the same block, and
the host's acts compute it on the idle engine: the lines that load the tail and present STRETCH are accepted, and after
its completion the lines that read BLOCK, XOR `acc` into it and write it back leave BLOCK = stretch(pw, declared), with
SALT, KEY, DIGEST, OUT and the error record unchanged. (The line that writes a computed value is the model's, log 21.) -/
def Obligations.LongInputStretchesInTwoParts : Prop :=
  ∀ (pw : List Byte) (declared : Nat), declared ≤ pw.length →
    longStretch pw declared = stretch pw declared ∧
    ∀ s : State, busy s = false → ∃ t u v,
      runLines (longTailLines pw declared) s = .next t ∧
      t.pending = some (.stretch (trimmedLength pw declared % 32)) ∧
      exec (.stretch (trimmedLength pw declared % 32)) t = .next u ∧
      runLines (xorBlockLines (foldBlocks pw (trimmedLength pw declared / 32)) 1) u = .next v ∧
      v.block = stretch pw declared ∧ v.pending = none ∧
      v.salt = s.salt ∧ v.key = s.key ∧ v.digest = s.digest ∧ v.out = s.out ∧ v.err = s.err ∧ v.errcode = s.errcode

/-! The Diffusion Hash (42_diffusion.md). -/

/-- R172: the two rounds are 64 steps in order, step `k` at position `k mod 32`, with `last` starting at 0 and carried
through; each step reads the reference byte of the current buffer, writes its own position and no other, and adds the
new value to `last`. -/
def Obligations.TwoRoundsAreSixtyFourOrderedSteps : Prop :=
  (∀ (salt : Salt) (block : Block),
    workingBuffer salt block =
      ((List.range 64).foldl (fun p k => roundStep p (k % 32)) (salted salt block, 0#8)).1) ∧
  ∀ (w : Block) (last : Byte) (i : Nat), i < 32 →
    byteAt (roundStep (w, last) i).1 i = (byteAt w i + last) ^^^ (byteAt w ((last.toNat + i) % 32) - kt i) ∧
    (∀ j, j ≠ i → byteAt (roundStep (w, last) i).1 j = byteAt w j) ∧
    (roundStep (w, last) i).2 = last + byteAt (roundStep (w, last) i).1 i

/-- R174: each output byte holds the substituted even-indexed working byte in its low nibble and the odd-indexed one
in its high nibble. -/
def Obligations.DigestBytesAreFoldedNibbles : Prop :=
  ∀ (salt : Salt) (block : Block) (k : Nat), k < 16 →
    (byteAt (diffuse salt block) k).extractLsb' 0 4 = sbox (byteAt (workingBuffer salt block) (2 * k)).toNat ∧
    (byteAt (diffuse salt block) k).extractLsb' 4 4 = sbox (byteAt (workingBuffer salt block) (2 * k + 1)).toNat

/-- R171, R176: the hash sees block and salt only through their cyclic XOR. -/
def Obligations.DiffuseSeesOnlyTheSaltedBlock : Prop :=
  ∀ (s s' : Salt) (b b' : Block),
    (∀ p, p < 32 → byteAt b p ^^^ byteAt s (p % 4) = byteAt b' p ^^^ byteAt s' (p % 4)) → diffuse s b = diffuse s' b'

/-! The Block Cipher (43_cipher.md). -/

/-- R194: the fold in two stages. -/
def Obligations.CipherFoldsInTwoStages : Prop :=
  ∀ (key : Key) (pt : Digest) (u : Nat → Byte),
    (∀ j, j < 16 → u j = byteAt (cipherTemp key pt) j ^^^ byteAt (cipherTemp key pt) (31 - j)) →
    ∀ i, i < 8 → byteAt (cipher key pt) i = u i ^^^ u (15 - i)

/-- R196: equal key halves give a zero result for every plaintext. -/
def Obligations.EqualKeyHalvesGiveZero : Prop :=
  ∀ (key : Key) (pt : Digest), (∀ p, p < 4 → byteAt key p = byteAt key (4 + p)) → cipher key pt = zeroBytes 8

/-- R196: swapping the key halves does not change the result. -/
def Obligations.SwappedKeyHalvesGiveTheSame : Prop :=
  ∀ (key key' : Key) (pt : Digest),
    (∀ p, p < 4 → byteAt key' p = byteAt key (4 + p) ∧ byteAt key' (4 + p) = byteAt key p) →
      cipher key' pt = cipher key pt

/-- R191, R192: the plaintext is expanded by the stretcher with its zero bytes at the end trimmed, an all-zero
plaintext to the Key Table, and `temp` is the two digests of that one block. -/
def Obligations.CipherExpandsTheTrimmedPlaintext : Prop :=
  ∀ (key : Key) (pt : Digest) (k : Nat), k ≤ 16 → (∀ i, 16 - k ≤ i → i < 16 → byteAt pt i = 0#8) →
    expand pt = stretch (pt.toList.take (16 - k)) (16 - k) ∧
    (k = 16 → expand pt = ktab) ∧
    ∀ j, j < 16 →
      byteAt (cipherTemp key pt) j = byteAt (diffuse (keyHalf key 0) (expand pt)) j ∧
      byteAt (cipherTemp key pt) (16 + j) = byteAt (diffuse (keyHalf key 1) (expand pt)) j

/-! The completion step of each command (44_control.md R211). -/

/-- R212: a NOP completes in every state and changes only BUSY and DONE. -/
def Obligations.NopCompletesAndChangesNoData : Prop :=
  ∀ s : State, exec .nop s = .next { s with pending := none, done := true }

/-- 41_stretcher.md R156: STRETCH completes whenever its LEN bytes of INBUF are written, with
BLOCK = stretch(INBUF[0..LEN), LEN), and changes only BLOCK, BUSY and DONE. -/
def Obligations.StretchCompletesWithTheStretchedBlock : Prop :=
  ∀ (s : State) (bytes : List Byte), bytes.length ≤ Config.inBytes → inbufHolds bytes s →
    exec (.stretch bytes.length) s =
      .next { s with block := stretch bytes bytes.length, pending := none, done := true }

/-- 42_diffusion.md R175: DIFFUSE completes in every state with DIGEST = diffuse(SALT, BLOCK), and changes only
DIGEST, BUSY and DONE. -/
def Obligations.DiffuseCompletesWithTheDigest : Prop :=
  ∀ s : State, exec .diffuse s = .next { s with digest := diffuse s.salt s.block, pending := none, done := true }

/-- 43_cipher.md R195: CIPHER completes in every state with OUT = cipher(KEY, DIGEST), and changes only OUT, BUSY and
DONE. -/
def Obligations.CipherCompletesWithTheLoginHash : Prop :=
  ∀ s : State, exec .cipher s = .next { s with out := cipher s.key s.digest, pending := none, done := true }

/-- R211, 60_exceptions.md R246: the frame of the four commands NOP, STRETCH, DIFFUSE and CIPHER. A completion clears
BUSY, sets DONE, leaves ERR and ERRCODE, and changes no byte of the window outside STATUS and its own result
register (BLOCK, DIGEST or OUT; none for NOP), and nothing of the host. -/
def Obligations.CompletionChangesOnlyItsResult : Prop :=
  ∀ (i : Instr) (s t : State), exec i s = .next t →
    t.pending = none ∧ t.done = true ∧ t.err = s.err ∧ t.errcode = s.errcode ∧
    t.salt = s.salt ∧ t.key = s.key ∧ t.inbuf = s.inbuf ∧
    (resultRegion i ≠ some .block → t.block = s.block) ∧ (resultRegion i ≠ some .digest → t.digest = s.digest) ∧
    (resultRegion i ≠ some .out → t.out = s.out) ∧
    (∀ o, regionOf o ≠ .status → resultRegion i ≠ some (regionOf o) → windowByte o t = windowByte o s) ∧
    sameHost s t ∧ sameSchedule s t

/-- 60_exceptions.md R240, 41_stretcher.md R156: a completion is never refused, NOP, DIFFUSE and CIPHER never stop, and
STRETCH faults exactly when a byte of INBUF[0..LEN) was never written (U2) or LEN is above P_IN_BYTES. (The fault for a
LEN above P_IN_BYTES is the model's, log 14: the spec has no pending command of that kind.) -/
def Obligations.OnlyUnwrittenInputStopsACompletion : Prop :=
  ∀ (i : Instr) (s : State),
    (∀ r, exec i s ≠ .refused r) ∧
    ((∃ f, exec i s = .fault f) ↔ ∃ len, i = .stretch len ∧ exec i s = .fault .stretchUnwritten ∧
      (Config.inBytes < len ∨ ∃ k, k < len ∧ cellFind s.inbuf (inbufBase + k) = none)) ∧
    ∀ len, i = .stretch len → (Config.inBytes < len ∨ ∃ k, k < len ∧ cellFind s.inbuf (inbufBase + k) = none) →
      exec i s = .fault .stretchUnwritten

/-- R215, 20_memory.md R91: the result of a completion is a function of the command's operand registers alone. -/
def Obligations.ResultDependsOnOperandsAlone : Prop :=
  ∀ (i : Instr) (s s' t t' : State), operandsAgree i s s' → exec i s = .next t → exec i s' = .next t' →
    resultOf i t = resultOf i t'

/-! Presenting a command (44_control.md R210, 60_exceptions.md). -/

/-- R210: a command that the idle engine accepts becomes pending, with DONE cleared and no data register, ERR or
ERRCODE changed. (The delay and the count of free values are the model's, log 3.) -/
def Obligations.AcceptedCommandBecomesPending : Prop :=
  ∀ (s : State) (i : Instr), i.wellFormed = true → tooLong i = false → busy s = false →
    hostWrite .w32 0x0000#16 (encode i) s =
      .next { s with
        pending := some i, done := false, delay := Config.latency s.draws, draws := s.draws + 1 }

/-- R243: the idle engine rejects STRETCH with LEN above P_IN_BYTES with E_LENGTH, and accepts it at P_IN_BYTES and
below. -/
def Obligations.OverlongStretchIsRejected : Prop :=
  ∀ (s : State) (len : Nat), len ≤ 65535 → busy s = false →
    (Config.inBytes < len →
      hostWrite .w32 0x0000#16 (encode (.stretch len)) s =
        .next { s with done := true, err := true, errcode := keptCode s .length }) ∧
    (len ≤ Config.inBytes →
      ∃ t, hostWrite .w32 0x0000#16 (encode (.stretch len)) s = .next t ∧ t.pending = some (.stretch len) ∧
        t.err = s.err ∧ t.errcode = s.errcode)

/-- R244: while BUSY = 1, a 32-bit write to CMD of any value, and a byte or aligned word write to SALT, KEY, DIGEST,
BLOCK or INBUF, are ignored and raise E_BUSY; a byte write to CMD and writes to every other offset never do. -/
def Obligations.WritesWhileBusyAreIgnored : Prop :=
  ∀ (s : State) (off : Offset) (v : Word), busy s = true →
    hostWrite .w32 0x0000#16 v s = .next { s with err := true, errcode := keptCode s .busy } ∧
    ((regionOf off.toNat).writable = true →
      hostWrite .w8 off v s = .next { s with err := true, errcode := keptCode s .busy } ∧
      (off.toNat % 4 = 0 →
        hostWrite .w32 off v s = .next { s with err := true, errcode := keptCode s .busy })) ∧
    (regionOf off.toNat = .cmd → hostWrite .w8 off v s = .next s) ∧
    ((regionOf off.toNat).writable = false → regionOf off.toNat ≠ .cmd → ∀ width t, hostWrite width off v s = .next t →
      t.pending = s.pending ∧ (t.err = true → s.err = true) ∧ sameData s t)

/-- R247, with R242 and R243 for the cause: the idle engine rejects an illegal word with E_ILLEGAL and an overlong
STRETCH with E_LENGTH and nothing else; a rejection leaves BUSY = 0, sets DONE, records that error and changes nothing
else; a write that raises E_BUSY changes nothing but ERR and ERRCODE, and those only if ERR was 0. -/
def Obligations.RejectionIsPrecise : Prop :=
  ∀ (s t : State) (w : Word), hostWrite .w32 0x0000#16 w s = .next t →
    (busy s = false → (t.pending = none ↔ (∃ g, decode w = .error g) ∨ ∃ i, decode w = .ok i ∧ tooLong i = true)) ∧
    (busy s = false → ((∃ g, decode w = .error g) ∨ ∃ i, decode w = .ok i ∧ tooLong i = true) →
      busy t = false ∧
      ∃ e, t = { s with done := true, err := true, errcode := keptCode s e } ∧
        ((e = .illegal ∧ ∃ g, decode w = .error g) ∨ (e = .length ∧ ∃ i, decode w = .ok i ∧ tooLong i = true))) ∧
    (busy s = true → ∀ width off v u, regionOf off.toNat ≠ .status → hostWrite width off v s = .next u →
      u = s ∨ u = { s with err := true, errcode := keptCode s .busy } ∧ (s.err = true → u = s))

/-- R245, 10_state.md R44: an error is recorded only while ERR = 0, and once ERR = 1 every step keeps ERR and ERRCODE,
but for a reset and a host line that writes STATUS with bit 2 set, each of which clears both. (That a line runs when no
reset is due and no completion is, is the model's schedule, log 5 and log 3.) -/
def Obligations.FirstErrorIsKept : Prop :=
  (∀ (s : State) (e : ErrorCode),
    (s.err = false → raiseError e s = { s with err := true, errcode := e.code }) ∧
    (s.err = true → raiseError e s = s)) ∧
  ∀ s t : State, s.err = true → step s = .next t →
    (resetDue s = true → t.err = false ∧ t.errcode = 0#4) ∧
    (resetDue s = false → ∀ i, s.pending = some i → s.delay = 0 → t.err = true ∧ t.errcode = s.errcode) ∧
    (resetDue s = false → (s.pending = none ∨ s.delay ≠ 0) →
      (∀ l, s.program[s.line]? = some l → clearsError s l.op = true → t.err = false ∧ t.errcode = 0#4) ∧
      ((∀ l, s.program[s.line]? = some l → clearsError s l.op = false) → t.err = true ∧ t.errcode = s.errcode))

/-! The register window (20_memory.md). -/

/-- R71, R75, R85: which offsets are CMD, STATUS, reserved, writable or under the result hazard, by number; and what the
host reads of each byte-array register while BUSY = 0: byte `k` at its offset plus `k`, for INBUF the written bytes that
STRETCH takes, and an aligned word as its four bytes, the first in bits [31:24]. -/
def Obligations.WindowShowsEachRegisterAtItsOffset : Prop :=
  (∀ o : Nat,
    (regionOf o = .cmd ↔ o < 0x4) ∧ (regionOf o = .status ↔ 0x4 ≤ o ∧ o < 0x8) ∧
    (regionOf o = .reserved ↔
      (0x14 ≤ o ∧ o < 0x18) ∨ (0x38 ≤ o ∧ o < 0x40) ∨ (0x60 ≤ o ∧ o < 0x100) ∨ (0x120 ≤ o ∧ o < 0x200) ∨
        (0x300 ≤ o ∧ o < 0x8000) ∨ 0x8000 + Config.inBytes ≤ o) ∧
    ((regionOf o).writable = true ↔
      (0x10 ≤ o ∧ o < 0x14) ∨ (0x18 ≤ o ∧ o < 0x30) ∨ (0x40 ≤ o ∧ o < 0x60) ∨
        (0x8000 ≤ o ∧ o < 0x8000 + Config.inBytes)) ∧
    ((regionOf o).hazardous = true ↔ (0x20 ≤ o ∧ o < 0x38) ∨ (0x40 ≤ o ∧ o < 0x60))) ∧
  ∀ s : State, busy s = false →
    (∀ k, k < 4 → hostRead .w8 (BitVec.ofNat 16 (0x10 + k)) s = .next ((byteAt s.salt k).zeroExtend 32, s)) ∧
    (∀ k, k < 8 → hostRead .w8 (BitVec.ofNat 16 (0x18 + k)) s = .next ((byteAt s.key k).zeroExtend 32, s)) ∧
    (∀ k, k < 16 → hostRead .w8 (BitVec.ofNat 16 (0x20 + k)) s = .next ((byteAt s.digest k).zeroExtend 32, s)) ∧
    (∀ k, k < 8 → hostRead .w8 (BitVec.ofNat 16 (0x30 + k)) s = .next ((byteAt s.out k).zeroExtend 32, s)) ∧
    (∀ k, k < 32 → hostRead .w8 (BitVec.ofNat 16 (0x40 + k)) s = .next ((byteAt s.block k).zeroExtend 32, s)) ∧
    (∀ bytes : List Byte, bytes.length ≤ Config.inBytes → inbufHolds bytes s → ∀ k, k < bytes.length →
      hostRead .w8 (BitVec.ofNat 16 (0x8000 + k)) s = .next ((bytes.getD k 0#8).zeroExtend 32, s)) ∧
    (∀ (off : Offset) (b0 b1 b2 b3 : Byte), off.toNat % 4 = 0 →
      hostRead .w8 off s = .next (b0.zeroExtend 32, s) → hostRead .w8 (off + 1#16) s = .next (b1.zeroExtend 32, s) →
      hostRead .w8 (off + 2#16) s = .next (b2.zeroExtend 32, s) →
      hostRead .w8 (off + 3#16) s = .next (b3.zeroExtend 32, s) →
      hostRead .w32 off s = .next (b0 ++ b1 ++ b2 ++ b3, s))

/-- R75: an aligned word written to an RW data register while BUSY = 0 reads back, as a word and byte by byte in
big-endian order, and every other byte of the window and everything else stays as it was. -/
def Obligations.StoredWordReadsBack : Prop :=
  ∀ (s : State) (off : Offset) (v : Word), off.toNat % 4 = 0 → (regionOf off.toNat).writable = true → busy s = false →
    ∃ t, hostWrite .w32 off v s = .next t ∧ hostRead .w32 off t = .next (v, t) ∧
      (∀ j, j < 4 → hostRead .w8 (off + BitVec.ofNat 16 j) t =
        .next ((v.extractLsb' (24 - 8 * j) 8).zeroExtend 32, t)) ∧
      (∀ o, (o < off.toNat ∨ off.toNat + 4 ≤ o) → windowByte o t = windowByte o s) ∧
      t.pending = s.pending ∧ t.done = s.done ∧ t.err = s.err ∧ t.errcode = s.errcode ∧ t.out = s.out ∧
      sameHost s t ∧ sameSchedule s t

/-- R78: a byte written to an RW data register while BUSY = 0 reads back, and every other byte of the window and
everything else stays as it was. -/
def Obligations.StoredByteReadsBack : Prop :=
  ∀ (s : State) (off : Offset) (v : Word), (regionOf off.toNat).writable = true → busy s = false →
    ∃ t, hostWrite .w8 off v s = .next t ∧ hostRead .w8 off t = .next ((v.truncate 8).zeroExtend 32, t) ∧
      (∀ o, o ≠ off.toNat → windowByte o t = windowByte o s) ∧
      t.pending = s.pending ∧ t.done = s.done ∧ t.err = s.err ∧ t.errcode = s.errcode ∧ t.out = s.out ∧
      sameHost s t ∧ sameSchedule s t

/-- R76: a word write of an object identifier to SALT stores its bytes big-endian. -/
def Obligations.SaltHoldsTheIdentifierBigEndian : Prop :=
  ∀ (s : State) (id : Word), busy s = false →
    hostWrite .w32 0x0010#16 id s =
      .next { s with
        salt := #v[id.extractLsb' 24 8, id.extractLsb' 16 8, id.extractLsb' 8 8, id.extractLsb' 0 8] }

/-- R72: a reserved offset reads 0 and ignores writes, busy or not, and neither changes anything. -/
def Obligations.ReservedOffsetsReadZeroAndIgnoreWrites : Prop :=
  ∀ (s : State) (off : Offset) (v : Word), regionOf off.toNat = .reserved →
    hostRead .w8 off s = .next (0#32, s) ∧ hostWrite .w8 off v s = .next s ∧
    (off.toNat % 4 = 0 → hostRead .w32 off s = .next (0#32, s) ∧ hostWrite .w32 off v s = .next s)

/-- R80 (second item): the read-only registers ignore every write and record no error, busy or not. -/
def Obligations.ReadOnlyRegistersIgnoreWrites : Prop :=
  ∀ (s : State) (off : Offset) (v : Word),
    (regionOf off.toNat = .id ∨ regionOf off.toNat = .cap ∨ regionOf off.toNat = .out ∨ regionOf off.toNat = .ktab ∨
      regionOf off.toNat = .sbox) →
    hostWrite .w8 off v s = .next s ∧ (off.toNat % 4 = 0 → hostWrite .w32 off v s = .next s)

/-- 10_state.md R39, R40: ID and CAP read their constants in every state and ignore writes. -/
def Obligations.IdAndCapAreConstants : Prop :=
  ∀ (s : State) (v : Word),
    hostRead .w32 0x0008#16 s = .next (0x4E570001#32, s) ∧
    hostRead .w32 0x000C#16 s = .next (BitVec.ofNat 32 Config.inBytes, s) ∧
    hostWrite .w32 0x0008#16 v s = .next s ∧ hostWrite .w32 0x000C#16 v s = .next s ∧
    ∀ off : Offset, 8 ≤ off.toNat → off.toNat < 16 → hostWrite .w8 off v s = .next s

/-- 10_state.md R41, R42: STATUS reads its fields in their places, BUSY exactly when PENDING holds a command, and 0
elsewhere; reading it changes nothing. -/
def Obligations.StatusShowsItsFields : Prop :=
  ∀ s : State,
    hostRead .w32 0x0004#16 s = .next (status s, s) ∧
    (status s).getLsbD 0 = s.pending.isSome ∧ (status s).getLsbD 1 = s.done ∧ (status s).getLsbD 2 = s.err ∧
    (status s).getLsbD 3 = false ∧ (status s).extractLsb' 4 4 = s.errcode ∧ (status s).extractLsb' 8 24 = 0#24

/-- 10_state.md R45: a write to STATUS clears DONE by bit 1 and ERR with ERRCODE by bit 2 and does nothing else, as a
word or as a byte at 0x0007, busy or not; a byte write at 0x0004 to 0x0006 has no effect. -/
def Obligations.StatusWriteClearsDoneAndErr : Prop :=
  ∀ (s : State) (v : Word),
    hostWrite .w32 0x0004#16 v s =
      .next { s with
        done := s.done && !v.getLsbD 1, err := s.err && !v.getLsbD 2,
        errcode := if v.getLsbD 2 then 0#4 else s.errcode } ∧
    hostWrite .w8 0x0007#16 v s = hostWrite .w32 0x0004#16 v s ∧
    ∀ off : Offset, 4 ≤ off.toNat → off.toNat < 7 → hostWrite .w8 off v s = .next s

/-- 10_state.md R46: CMD reads 0 with no side effect, a word write presents a command, a byte write is ignored. -/
def Obligations.CmdHasNoStorage : Prop :=
  ∀ (s : State) (v : Word),
    hostRead .w32 0x0000#16 s = .next (0#32, s) ∧ hostWrite .w32 0x0000#16 v s = .next (presentCommand v s) ∧
    ∀ off : Offset, off.toNat < 4 → hostRead .w8 off s = .next (0#32, s) ∧ hostWrite .w8 off v s = .next s

/-- R73, R77: the accesses refused are exactly the word accesses at offsets that are no multiple of 4 and the accesses
of 16 and 64 bits. -/
def Obligations.OnlyMisalignedAndOtherWidthsAreRefused : Prop :=
  ∀ (s : State) (off : Offset) (v : Word),
    (∀ width, (∃ r, hostWrite width off v s = .refused r) ↔
      (width = .w32 ∧ off.toNat % 4 ≠ 0) ∨ width = .w16 ∨ width = .w64) ∧
    (∀ width, (∃ r, hostRead width off s = .refused r) ↔
      (width = .w32 ∧ off.toNat % 4 ≠ 0) ∨ width = .w16 ∨ width = .w64) ∧
    ∀ width f, hostWrite width off v s ≠ .fault f

/-- R90, R82: a host byte read of an INBUF byte never written faults, as R90 tells a model to treat it, and no other
byte read does; an aligned word read faults exactly when one of its four bytes is such a byte. (The word's fault is
deduced from R82, log 19.) -/
def Obligations.OnlyUnwrittenInbufReadsFault : Prop :=
  ∀ (s : State) (off : Offset),
    ((∃ f, hostRead .w8 off s = .fault f) ↔
      regionOf off.toNat = .inbuf ∧ cellFind s.inbuf off.toNat = none) ∧
    (off.toNat % 4 = 0 → ((∃ f, hostRead .w32 off s = .fault f) ↔
      regionOf off.toNat = .inbuf ∧ ∃ j, j < 4 ∧ cellFind s.inbuf (off.toNat + j) = none))

/-- R79: a read changes no state, but for the model's count of the free values an unspecified read draws
(70_reset_and_hazards.md R285; log 2). -/
def Obligations.ReadsHaveNoSideEffect : Prop :=
  ∀ (s t : State) (width : Width) (off : Offset) (v : Word), hostRead width off s = .next (v, t) →
    t = { s with draws := t.draws } ∧ (busy s = false ∨ (regionOf off.toNat).hazardous = false → t = s)

/-- 70_reset_and_hazards.md R285: while BUSY = 1 each byte of BLOCK, DIGEST or OUT, read alone or in an aligned word,
reads as a free value, drawn afresh by each read (the model's form of "unspecified", log 2); every other register reads
exactly. -/
def Obligations.BusyResultReadsAreFree : Prop :=
  ∀ (s : State) (off : Offset), busy s = true →
    ((regionOf off.toNat).hazardous = true →
      hostRead .w8 off s =
        .next ((Config.unspecifiedByte s.draws).zeroExtend 32, { s with draws := s.draws + 1 }) ∧
      (off.toNat % 4 = 0 →
        hostRead .w32 off s =
          .next (Config.unspecifiedByte s.draws ++ Config.unspecifiedByte (s.draws + 1) ++
            Config.unspecifiedByte (s.draws + 2) ++ Config.unspecifiedByte (s.draws + 3),
            { s with draws := s.draws + 4 }))) ∧
    ((regionOf off.toNat).hazardous = false →
      (∀ b, windowByte off.toNat s = some b → hostRead .w8 off s = .next (b.zeroExtend 32, s)) ∧
      (off.toNat % 4 = 0 → ∀ b0 b1 b2 b3, windowByte off.toNat s = some b0 →
        windowByte (off.toNat + 1) s = some b1 → windowByte (off.toNat + 2) s = some b2 →
        windowByte (off.toNat + 3) s = some b3 → hostRead .w32 off s = .next (b0 ++ b1 ++ b2 ++ b3, s)))

/-- 00_scope.md R8: P_IN_BYTES is a multiple of 32 in 32..32768. -/
def Obligations.CapacityIsInRange : Prop :=
  Config.inBytes % 32 = 0 ∧ 32 ≤ Config.inBytes ∧ Config.inBytes ≤ 32768

/-! The host agent. -/

/-- 70_reset_and_hazards.md R286, R288: a host line that keeps the required wait records no error while BUSY = 1,
leaves the pending command and its operands alone, and draws no free value. (The count of free values drawn, which
says here that nothing unspecified was read, is the model's, log 2.) -/
def Obligations.HostThatWaitsDisturbsNothing : Prop :=
  ∀ (s t : State) (op : HostOp), busy s = true → keepsWait s op = true → hostOp op s = .next t →
    (t.err = true → s.err = true) ∧ t.pending = s.pending ∧ sameData s t ∧ t.draws = s.draws

/-- 30_encoding.md R117 and the model's choices: in a well-formed program every jump finds its line, so no step is
refused for a label (that a missing label is refused is the model's, log 15), and running a program never changes it
(the model's, log 7). -/
def Obligations.WellFormedProgramFindsItsLabels : Prop :=
  ∀ s : State, programWellFormed s.program = true →
    step s ≠ .refused .unknownLabel ∧ ∀ t, step s = .next t → t.program = s.program

/-- 30_encoding.md R117: a read puts its value into the named host register and no other; BNZ goes to the line its
label names when a masked bit is set, else to the next line, and does nothing to the engine. 45_adapters.md R228: the
line that XORs does the write of the host register XORed with its constant (the line's form is the model's, log 21). -/
def Obligations.HostLinesReadAndJump : Prop :=
  ∀ (s : State) (width : Width) (off : Offset) (name : Nat) (mask : Word) (label : Nat),
    (∀ v u, hostRead width off s = .next (v, u) →
      ∃ t, hostOp (.rd width off name) s = .next t ∧ hostName t name = v ∧
        (∀ m, m ≠ name → hostName t m = hostName s m) ∧ t.line = s.line + 1 ∧ t.program = s.program ∧
        sameData s t ∧ t.pending = s.pending ∧ status t = status s) ∧
    (hostName s name &&& mask = 0#32 → hostOp (.bnz name mask label) s = .next { s with line := s.line + 1 }) ∧
    (hostName s name &&& mask ≠ 0#32 → ∀ k, labelLine label 0 s.program = some k →
      hostOp (.bnz name mask label) s = .next { s with line := k }) ∧
    (∀ v t, hostWrite width off (hostName s name ^^^ v) s = .next t →
      hostOp (.wrXor width off name v) s = .next { t with line := t.line + 1 })

/-- 30_encoding.md R116: the assembler reads back what the disassembler prints of every command word. -/
def Obligations.AssemblerReadsTheDisassembly : Prop :=
  ∀ (w : Word) (i : Instr), decode w = .ok i → assemble (disassemble w) = some i

/-! Steps, reset, and whole runs. -/

/-- R211: when no reset is due and the pending command's delay has run out, the step is that command's completion
step; and a command word stored as the next to run is decoded and run by the very next step. (The delay and the order
of the agents' turns are the model's, log 3 and log 5; so is withFetchWord, log 8: in the spec a command comes to run
only by a CMD write.) -/
def Obligations.StepRunsTheDecodedCommand : Prop :=
  (∀ (s : State) (i : Instr), resetDue s = false → s.pending = some i → s.delay = 0 → step s = exec i (tick s)) ∧
  ∀ (s : State) (nbits w : Nat) (i : Instr), decode (BitVec.ofNat 32 (w % 2 ^ nbits)) = .ok i → tooLong i = false →
    step (s.withFetchWord nbits w) = exec i (s.withFetchWord nbits w)

/-- The model's schedule (log 3 and log 5): while no command is pending, or its delay has not run out, and no reset is
due, the step is the host's next line, one atomic step as R83 has it. R83 and R84 leave the interleaving free. -/
def Obligations.OtherwiseTheHostSteps : Prop :=
  ∀ s : State, resetDue s = false → (s.pending = none ∨ s.delay ≠ 0) →
    step s = hostStep (tick s) ∧
    ∀ l, s.program[s.line]? = some l → step s = hostOp l.op (tick s)

/-- 70_reset_and_hazards.md R280: a reset step gives every engine register its reset value and abandons the pending
command. (That the host agent stays is the model's, log 6.) -/
def Obligations.ResetRestoresEveryRegister : Prop :=
  ∀ s : State, resetDue s = true →
    ∃ t, step s = .next t ∧ t.pending = none ∧ status t = 0#32 ∧ t.done = false ∧ t.err = false ∧ t.errcode = 0#4 ∧
      (∀ i, byteAt t.salt i = 0#8 ∧ byteAt t.key i = 0#8 ∧ byteAt t.digest i = 0#8 ∧ byteAt t.out i = 0#8 ∧
        byteAt t.block i = 0#8) ∧
      hostRead .w32 0x0008#16 t = .next (0x4E570001#32, t) ∧
      hostRead .w32 0x000C#16 t = .next (BitVec.ofNat 32 Config.inBytes, t) ∧ sameHost s t

/-- 70_reset_and_hazards.md R281: a reset clears every written-mark: every INBUF read faults until the host writes,
and so does every STRETCH that reads a byte. -/
def Obligations.ResetForgetsInbuf : Prop :=
  ∀ s t : State, resetDue s = true → step s = .next t →
    (∀ o, cellFind t.inbuf o = none) ∧
    (∀ off : Offset, regionOf off.toNat = .inbuf → hostRead .w8 off t = .fault .inbufReadUnwritten) ∧
    ∀ len, 0 < len → exec (.stretch len) t = .fault .stretchUnwritten

/-- The state after reset meets the invariant (10_state.md R30). -/
def Obligations.ResetStateMeetsTheInvariant : Prop := State.Inv State.reset

/-- The invariant that every step keeps: INBUF stays in canonical form, ERR and ERRCODE agree (10_state.md R44),
ERRCODE stays a code the engine has (60_exceptions.md R241), PENDING holds an encodable command that fits
(60_exceptions.md R243), DONE is 0 while it does (10_state.md R43). -/
def Obligations.EveryStepKeepsTheInvariant : Prop :=
  ∀ s t : State, State.Inv s → step s = .next t → State.Inv t

/-- 70_reset_and_hazards.md R284: no step of the host changes an operand, a result or the pending command while a
command is pending. (That the host steps while the delay has not run out, and that the delay falls by one, is the
model's schedule, log 3 and log 5.) -/
def Obligations.OperandsAreProtectedWhileBusy : Prop :=
  ∀ s t : State, busy s = true → resetDue s = false → s.delay ≠ 0 → step s = .next t →
    t.pending = s.pending ∧ sameData s t ∧ (t.done = true → s.done = true) ∧ t.delay + 1 = s.delay

/-- R214, R211: a pending command that no reset takes away completes after its delay, whatever the host does in
between, and what it writes is what its operands gave when it began to wait. (R214 makes the delay finite and
unspecified; that it is the number of steps `delay`, and that the next reset is a number of steps away, is the model's,
log 3, log 5 and log 6.) -/
def Obligations.PendingCommandCompletesWithItsOperands : Prop :=
  ∀ (s u : State) (i : Instr), s.pending = some i → (∀ k, s.resetAfter.head? = some k → s.delay < k) →
    runSteps s.delay s = .next u →
      step u = exec i (tick u) ∧ sameData s u ∧
      ∀ t t', step u = .next t → exec i s = .next t' → resultOf i t = resultOf i t' ∧ t.pending = none ∧ t.done = true

/-! The adapters (45_adapters.md). -/

/-- R221, R223, R225, R227: STRETCH, DIFFUSE and CIPHER, completed in that order over a password in INBUF, the identifier in
SALT and the session key in KEY, leave StoredHash in DIGEST and ClientLogin in OUT, and CIPHER over a stored hash that
the host wrote into DIGEST leaves the same OUT, so that client and server agree. -/
def Obligations.CommandSequenceComputesTheLogin : Prop :=
  ∀ (s s' : State) (id : Word) (key : Key) (pw : List Byte),
    pw.length ≤ Config.inBytes → inbufHolds pw s → s.salt = objectSalt id → s.key = key →
    s'.key = key → s'.digest = storedHash id pw →
    ∃ t1 t2 t3 t', exec (.stretch pw.length) s = .next t1 ∧ exec .diffuse t1 = .next t2 ∧ exec .cipher t2 = .next t3 ∧
      exec .cipher s' = .next t' ∧
      t1.block = stretch pw pw.length ∧ t2.digest = storedHash id pw ∧ t3.out = clientLogin id key pw ∧
      t'.out = t3.out ∧ t3.out = serverLogin key (storedHash id pw) ∧ authenticated t3.out t'.out = true
end

