-- ==== Sys2Proof/Laws/Bytes.lean ====
section
/-! SUPPORT. Byte arrays, the bus's byte order, and the canonical form of sparse data. -/

namespace Sys2Proof.Machine

@[simp] theorem byteAt_ofFn {n : Nat} (f : Fin n → Byte) (i : Nat) :
    byteAt (Vector.ofFn f) i = if h : i < n then f ⟨i, h⟩ else 0#8 := by
  unfold byteAt; split <;> simp_all

@[simp] theorem byteAt_zeroBytes (n i : Nat) : byteAt (zeroBytes n) i = 0#8 := by
  unfold byteAt zeroBytes; rw [Vector.getElem?_replicate]; split <;> rfl

theorem byteAt_of_le {n : Nat} (v : Vector Byte n) {i : Nat} (h : n ≤ i) : byteAt v i = 0#8 := by
  simp [byteAt, h]

theorem byteAt_setByte {n : Nat} (v : Vector Byte n) (i j : Nat) (b : Byte) :
    byteAt (setByte v i b) j = if i = j ∧ j < n then b else byteAt v j := by
  unfold byteAt setByte
  rw [Vector.getElem?_setIfInBounds]
  by_cases h : i = j
  · subst h
    by_cases hn : i < n <;> simp [hn]
  · simp [h]

@[simp] theorem byteAt_setByte_other {n : Nat} (v : Vector Byte n) {i j : Nat} (b : Byte) (h : i ≠ j) :
    byteAt (setByte v i b) j = byteAt v j := by simp [byteAt_setByte, h]

/-- Two byte arrays with the same bytes are equal. -/
theorem bytes_ext {n : Nat} {v w : Vector Byte n} (h : ∀ i, i < n → byteAt v i = byteAt w i) : v = w := by
  apply Vector.ext
  intro i hi
  simpa [byteAt, hi] using h i hi

@[simp] theorem byteAt_toList {n : Nat} (v : Vector Byte n) (i : Nat) : v.toList.getD i 0#8 = byteAt v i := by
  unfold byteAt
  by_cases h : i < n <;> simp [h]

/-- The byte order of the bus is one and the same for reads and writes. -/
theorem wordOfBytes_wordByte (w : Word) :
    wordOfBytes (wordByte w 0) (wordByte w 1) (wordByte w 2) (wordByte w 3) = w := by
  apply BitVec.eq_of_getLsbD_eq
  intro i hi
  simp only [wordOfBytes, wordByte, BitVec.getLsbD_append, BitVec.getLsbD_extractLsb']
  interval_cases i <;> simp

theorem wordBytes_wordOfBytes (b0 b1 b2 b3 : Byte) :
    wordBytes (wordOfBytes b0 b1 b2 b3) = [b0, b1, b2, b3] := by
  simp only [wordBytes, List.cons.injEq, and_true]
  refine ⟨?_, ?_, ?_, ?_⟩ <;>
  · apply BitVec.eq_of_getLsbD_eq
    intro i hi
    simp only [wordOfBytes, wordByte, BitVec.getLsbD_append, BitVec.getLsbD_extractLsb']
    interval_cases i <;> simp

/-! Sparse data. -/

variable {β : Type}

theorem cellFind_insert (k j : Nat) (v : β) (m : List (Nat × β)) :
    cellFind (cellInsert k v m) j = if j = k then some v else cellFind m j := by
  induction m with
  | nil => simp [cellInsert, cellFind]
  | cons c rest ih =>
    obtain ⟨a, u⟩ := c
    unfold cellInsert
    split_ifs with h1 h2 h3 <;> simp_all [cellFind]

/-- A cell below every listed key is not listed. -/
theorem cellFind_below {lo k : Nat} {m : List (Nat × β)} (h : cellsRise lo m = true) (hk : k < lo) :
    cellFind m k = none := by
  induction m generalizing lo with
  | nil => rfl
  | cons c rest ih =>
    obtain ⟨a, u⟩ := c
    simp only [cellsRise, Bool.and_eq_true, decide_eq_true_eq] at h
    have hne : k ≠ a := by omega
    simp [cellFind, hne, ih h.2 (by omega)]

theorem cellsRise_mono {lo lo' : Nat} {m : List (Nat × β)} (h : cellsRise lo m = true) (hl : lo' ≤ lo) :
    cellsRise lo' m = true := by
  cases m with
  | nil => rfl
  | cons c rest =>
    obtain ⟨a, u⟩ := c
    simp only [cellsRise, Bool.and_eq_true, decide_eq_true_eq] at h ⊢
    exact ⟨by omega, h.2⟩

theorem cellsRise_insert {lo k : Nat} {v : β} {m : List (Nat × β)} (h : cellsRise lo m = true) (hk : lo ≤ k) :
    cellsRise lo (cellInsert k v m) = true := by
  induction m generalizing lo with
  | nil => simp [cellInsert, cellsRise, hk]
  | cons c rest ih =>
    obtain ⟨a, u⟩ := c
    simp only [cellsRise, Bool.and_eq_true, decide_eq_true_eq] at h
    unfold cellInsert
    split_ifs with h1 h2
    · simp [cellsRise, hk, h.2]; omega
    · subst h2; simp [cellsRise, h]
    · simp only [cellsRise, Bool.and_eq_true, decide_eq_true_eq]
      exact ⟨h.1, ih h.2 (by omega)⟩

theorem mem_cellInsert {k : Nat} {v : β} {m : List (Nat × β)} {c : Nat × β} (h : c ∈ cellInsert k v m) :
    c = (k, v) ∨ c ∈ m := by
  induction m with
  | nil => simpa [cellInsert] using h
  | cons d rest ih =>
    obtain ⟨a, u⟩ := d
    unfold cellInsert at h
    split_ifs at h <;> simp only [List.mem_cons] at h ⊢ <;> tauto

/-- Writing an INBUF byte keeps the canonical form. -/
theorem memory_wf_insert {o : Nat} {b : Byte} {m : Memory} (h : Memory.wf m = true) (lo : inbufBase ≤ o)
    (hi : o < inbufBase + Config.inBytes) : Memory.wf (cellInsert o b m) = true := by
  simp only [Memory.wf, Bool.and_eq_true, List.all_eq_true, decide_eq_true_eq] at h ⊢
  refine ⟨cellsRise_insert h.1 lo, fun c hc => ?_⟩
  rcases mem_cellInsert hc with rfl | hm
  · exact hi
  · exact h.2 c hm

/-- Reset's memory has the canonical form. -/
theorem memory_wf_reset : Memory.wf State.reset.inbuf = true := rfl

/-- `cellRun` answers the bytes exactly when each of them is listed. -/
theorem cellRun_eq_some {m : Memory} {a n : Nat} {bs : List Byte} :
    cellRun m a n = some bs ↔
      bs.length = n ∧ ∀ i, i < n → cellFind m (a + i) = some (bs.getD i 0#8) := by
  induction n generalizing a bs with
  | zero => simp [cellRun, eq_comm (a := []), List.length_eq_zero_iff]
  | succ n ih =>
    constructor
    · intro h
      simp only [cellRun] at h
      split at h
      · rename_i b cs hb hcs
        obtain ⟨hl, hc⟩ := ih.mp hcs
        simp only [Option.some.injEq] at h
        subst h
        refine ⟨by simp [hl], fun i hi => ?_⟩
        cases i with
        | zero => simpa using hb
        | succ i =>
          have := hc i (by omega)
          rw [show a + (i + 1) = a + 1 + i by omega, this]
          simp
      · simp at h
    · rintro ⟨hl, hc⟩
      cases bs with
      | nil => simp at hl
      | cons b cs =>
        have h0 := hc 0 (by omega)
        have ht : cellRun m (a + 1) n = some cs := by
          apply ih.mpr
          refine ⟨by simpa using hl, fun i hi => ?_⟩
          have := hc (i + 1) (by omega)
          rw [show a + 1 + i = a + (i + 1) by omega, this]
          simp
        simp only [cellRun, ht]
        simp at h0
        simp [h0]

end Sys2Proof.Machine
end

