-- ==== Sys2Proof/Laws/Decode.lean ====
section
/-! SUPPORT. The fields of a command word, and what the decoder can answer. -/

namespace Sys2Proof

@[simp] theorem opField_commandWord (len : BitVec 16) (op : BitVec 4) : opField (commandWord len op) = op := by
  apply BitVec.eq_of_getLsbD_eq
  intro i hi
  simp only [opField, commandWord, BitVec.getLsbD_extractLsb', BitVec.getLsbD_append]
  interval_cases i <;> simp

@[simp] theorem rsvField_commandWord (len : BitVec 16) (op : BitVec 4) : rsvField (commandWord len op) = 0#12 := by
  apply BitVec.eq_of_getLsbD_eq
  intro i hi
  simp only [rsvField, commandWord, BitVec.getLsbD_extractLsb', BitVec.getLsbD_append]
  interval_cases i <;> simp

@[simp] theorem lenField_commandWord (len : BitVec 16) (op : BitVec 4) : lenField (commandWord len op) = len := by
  apply BitVec.eq_of_getLsbD_eq
  intro i hi
  simp only [lenField, commandWord, BitVec.getLsbD_extractLsb', BitVec.getLsbD_append]
  interval_cases i <;> simp

/-- A word whose reserved bits are 0 is made of its two other fields. -/
theorem commandWord_fields {w : Word} (h : rsvField w = 0#12) : commandWord (lenField w) (opField w) = w := by
  have hc : commandWord (lenField w) (opField w) = lenField w ++ rsvField w ++ opField w := by rw [h]; rfl
  rw [hc]
  apply BitVec.eq_of_getLsbD_eq
  intro i hi
  simp only [lenField, opField, rsvField, BitVec.getLsbD_append, BitVec.getLsbD_extractLsb']
  interval_cases i <;> simp

/-- All that the decoder can answer (30_encoding.md R114). -/
theorem decode_cases (w : Word) :
    (opField w = 0x1#4 ∧ rsvField w = 0#12 ∧ decode w = .ok (.stretch (lenField w).toNat)) ∨
    (opField w = 0x0#4 ∧ rsvField w = 0#12 ∧ lenField w = 0#16 ∧ decode w = .ok .nop) ∨
    (opField w = 0x2#4 ∧ rsvField w = 0#12 ∧ lenField w = 0#16 ∧ decode w = .ok .diffuse) ∨
    (opField w = 0x3#4 ∧ rsvField w = 0#12 ∧ lenField w = 0#16 ∧ decode w = .ok .cipher) ∨
    (¬ (opField w = 0x1#4 ∧ rsvField w = 0#12) ∧
      ¬ ((opField w = 0x0#4 ∨ opField w = 0x2#4 ∨ opField w = 0x3#4) ∧ rsvField w = 0#12 ∧ lenField w = 0#16) ∧
      decode w = .error (illegalReason w)) := by
  unfold decode
  split_ifs <;> simp_all
  rintro (h | h | h) <;> simp_all

end Sys2Proof
end

