-- ==== Sys2Proof/Laws/State.lean ====
section
/-! SUPPORT. For every named update of State, one lemma for each field: what the update leaves there. They are simp
lemmas, so that no proof unfolds a record update. -/

namespace Sys2Proof.Machine

/-! completed -/

@[simp] theorem completed_salt (s : State) : (completed s).salt = s.salt := rfl
@[simp] theorem completed_key (s : State) : (completed s).key = s.key := rfl
@[simp] theorem completed_digest (s : State) : (completed s).digest = s.digest := rfl
@[simp] theorem completed_out (s : State) : (completed s).out = s.out := rfl
@[simp] theorem completed_block (s : State) : (completed s).block = s.block := rfl
@[simp] theorem completed_inbuf (s : State) : (completed s).inbuf = s.inbuf := rfl
@[simp] theorem completed_pending (s : State) : (completed s).pending = none := rfl
@[simp] theorem completed_done (s : State) : (completed s).done = true := rfl
@[simp] theorem completed_err (s : State) : (completed s).err = s.err := rfl
@[simp] theorem completed_errcode (s : State) : (completed s).errcode = s.errcode := rfl
@[simp] theorem completed_delay (s : State) : (completed s).delay = s.delay := rfl
@[simp] theorem completed_draws (s : State) : (completed s).draws = s.draws := rfl
@[simp] theorem completed_resetAfter (s : State) : (completed s).resetAfter = s.resetAfter := rfl
@[simp] theorem completed_program (s : State) : (completed s).program = s.program := rfl
@[simp] theorem completed_line (s : State) : (completed s).line = s.line := rfl
@[simp] theorem completed_names (s : State) : (completed s).names = s.names := rfl

/-! acceptCommand -/

@[simp] theorem acceptCommand_salt (i : Instr) (s : State) : (acceptCommand i s).salt = s.salt := rfl
@[simp] theorem acceptCommand_key (i : Instr) (s : State) : (acceptCommand i s).key = s.key := rfl
@[simp] theorem acceptCommand_digest (i : Instr) (s : State) : (acceptCommand i s).digest = s.digest := rfl
@[simp] theorem acceptCommand_out (i : Instr) (s : State) : (acceptCommand i s).out = s.out := rfl
@[simp] theorem acceptCommand_block (i : Instr) (s : State) : (acceptCommand i s).block = s.block := rfl
@[simp] theorem acceptCommand_inbuf (i : Instr) (s : State) : (acceptCommand i s).inbuf = s.inbuf := rfl
@[simp] theorem acceptCommand_pending (i : Instr) (s : State) : (acceptCommand i s).pending = some i := rfl
@[simp] theorem acceptCommand_done (i : Instr) (s : State) : (acceptCommand i s).done = false := rfl
@[simp] theorem acceptCommand_err (i : Instr) (s : State) : (acceptCommand i s).err = s.err := rfl
@[simp] theorem acceptCommand_errcode (i : Instr) (s : State) : (acceptCommand i s).errcode = s.errcode := rfl
@[simp] theorem acceptCommand_delay (i : Instr) (s : State) : (acceptCommand i s).delay = Config.latency s.draws := rfl
@[simp] theorem acceptCommand_draws (i : Instr) (s : State) : (acceptCommand i s).draws = s.draws + 1 := rfl
@[simp] theorem acceptCommand_resetAfter (i : Instr) (s : State) : (acceptCommand i s).resetAfter = s.resetAfter := rfl
@[simp] theorem acceptCommand_program (i : Instr) (s : State) : (acceptCommand i s).program = s.program := rfl
@[simp] theorem acceptCommand_line (i : Instr) (s : State) : (acceptCommand i s).line = s.line := rfl
@[simp] theorem acceptCommand_names (i : Instr) (s : State) : (acceptCommand i s).names = s.names := rfl

/-! statusW1C -/

@[simp] theorem statusW1C_salt (v : Word) (s : State) : (statusW1C v s).salt = s.salt := rfl
@[simp] theorem statusW1C_key (v : Word) (s : State) : (statusW1C v s).key = s.key := rfl
@[simp] theorem statusW1C_digest (v : Word) (s : State) : (statusW1C v s).digest = s.digest := rfl
@[simp] theorem statusW1C_out (v : Word) (s : State) : (statusW1C v s).out = s.out := rfl
@[simp] theorem statusW1C_block (v : Word) (s : State) : (statusW1C v s).block = s.block := rfl
@[simp] theorem statusW1C_inbuf (v : Word) (s : State) : (statusW1C v s).inbuf = s.inbuf := rfl
@[simp] theorem statusW1C_pending (v : Word) (s : State) : (statusW1C v s).pending = s.pending := rfl
@[simp] theorem statusW1C_done (v : Word) (s : State) : (statusW1C v s).done = if v.getLsbD 1 then false else s.done := rfl
@[simp] theorem statusW1C_err (v : Word) (s : State) : (statusW1C v s).err = if v.getLsbD 2 then false else s.err := rfl
@[simp] theorem statusW1C_errcode (v : Word) (s : State) : (statusW1C v s).errcode = if v.getLsbD 2 then 0#4 else s.errcode := rfl
@[simp] theorem statusW1C_delay (v : Word) (s : State) : (statusW1C v s).delay = s.delay := rfl
@[simp] theorem statusW1C_draws (v : Word) (s : State) : (statusW1C v s).draws = s.draws := rfl
@[simp] theorem statusW1C_resetAfter (v : Word) (s : State) : (statusW1C v s).resetAfter = s.resetAfter := rfl
@[simp] theorem statusW1C_program (v : Word) (s : State) : (statusW1C v s).program = s.program := rfl
@[simp] theorem statusW1C_line (v : Word) (s : State) : (statusW1C v s).line = s.line := rfl
@[simp] theorem statusW1C_names (v : Word) (s : State) : (statusW1C v s).names = s.names := rfl

/-! nextLine -/

@[simp] theorem nextLine_salt (s : State) : (nextLine s).salt = s.salt := rfl
@[simp] theorem nextLine_key (s : State) : (nextLine s).key = s.key := rfl
@[simp] theorem nextLine_digest (s : State) : (nextLine s).digest = s.digest := rfl
@[simp] theorem nextLine_out (s : State) : (nextLine s).out = s.out := rfl
@[simp] theorem nextLine_block (s : State) : (nextLine s).block = s.block := rfl
@[simp] theorem nextLine_inbuf (s : State) : (nextLine s).inbuf = s.inbuf := rfl
@[simp] theorem nextLine_pending (s : State) : (nextLine s).pending = s.pending := rfl
@[simp] theorem nextLine_done (s : State) : (nextLine s).done = s.done := rfl
@[simp] theorem nextLine_err (s : State) : (nextLine s).err = s.err := rfl
@[simp] theorem nextLine_errcode (s : State) : (nextLine s).errcode = s.errcode := rfl
@[simp] theorem nextLine_delay (s : State) : (nextLine s).delay = s.delay := rfl
@[simp] theorem nextLine_draws (s : State) : (nextLine s).draws = s.draws := rfl
@[simp] theorem nextLine_resetAfter (s : State) : (nextLine s).resetAfter = s.resetAfter := rfl
@[simp] theorem nextLine_program (s : State) : (nextLine s).program = s.program := rfl
@[simp] theorem nextLine_line (s : State) : (nextLine s).line = s.line + 1 := rfl
@[simp] theorem nextLine_names (s : State) : (nextLine s).names = s.names := rfl

/-! tick -/

@[simp] theorem tick_salt (s : State) : (tick s).salt = s.salt := rfl
@[simp] theorem tick_key (s : State) : (tick s).key = s.key := rfl
@[simp] theorem tick_digest (s : State) : (tick s).digest = s.digest := rfl
@[simp] theorem tick_out (s : State) : (tick s).out = s.out := rfl
@[simp] theorem tick_block (s : State) : (tick s).block = s.block := rfl
@[simp] theorem tick_inbuf (s : State) : (tick s).inbuf = s.inbuf := rfl
@[simp] theorem tick_pending (s : State) : (tick s).pending = s.pending := rfl
@[simp] theorem tick_done (s : State) : (tick s).done = s.done := rfl
@[simp] theorem tick_err (s : State) : (tick s).err = s.err := rfl
@[simp] theorem tick_errcode (s : State) : (tick s).errcode = s.errcode := rfl
@[simp] theorem tick_delay (s : State) : (tick s).delay = s.delay - 1 := rfl
@[simp] theorem tick_draws (s : State) : (tick s).draws = s.draws := rfl
@[simp] theorem tick_resetAfter (s : State) : (tick s).resetAfter = resetsNearer s.resetAfter := rfl
@[simp] theorem tick_program (s : State) : (tick s).program = s.program := rfl
@[simp] theorem tick_line (s : State) : (tick s).line = s.line := rfl
@[simp] theorem tick_names (s : State) : (tick s).names = s.names := rfl

/-! engineReset -/

@[simp] theorem engineReset_salt (s : State) : (engineReset s).salt = State.reset.salt := rfl
@[simp] theorem engineReset_key (s : State) : (engineReset s).key = State.reset.key := rfl
@[simp] theorem engineReset_digest (s : State) : (engineReset s).digest = State.reset.digest := rfl
@[simp] theorem engineReset_out (s : State) : (engineReset s).out = State.reset.out := rfl
@[simp] theorem engineReset_block (s : State) : (engineReset s).block = State.reset.block := rfl
@[simp] theorem engineReset_inbuf (s : State) : (engineReset s).inbuf = State.reset.inbuf := rfl
@[simp] theorem engineReset_pending (s : State) : (engineReset s).pending = State.reset.pending := rfl
@[simp] theorem engineReset_done (s : State) : (engineReset s).done = State.reset.done := rfl
@[simp] theorem engineReset_err (s : State) : (engineReset s).err = State.reset.err := rfl
@[simp] theorem engineReset_errcode (s : State) : (engineReset s).errcode = State.reset.errcode := rfl
@[simp] theorem engineReset_delay (s : State) : (engineReset s).delay = State.reset.delay := rfl
@[simp] theorem engineReset_draws (s : State) : (engineReset s).draws = s.draws := rfl
@[simp] theorem engineReset_resetAfter (s : State) : (engineReset s).resetAfter = s.resetAfter := rfl
@[simp] theorem engineReset_program (s : State) : (engineReset s).program = s.program := rfl
@[simp] theorem engineReset_line (s : State) : (engineReset s).line = s.line := rfl
@[simp] theorem engineReset_names (s : State) : (engineReset s).names = s.names := rfl

/-! takeReset -/

@[simp] theorem takeReset_salt (s : State) : (takeReset s).salt = State.reset.salt := rfl
@[simp] theorem takeReset_key (s : State) : (takeReset s).key = State.reset.key := rfl
@[simp] theorem takeReset_digest (s : State) : (takeReset s).digest = State.reset.digest := rfl
@[simp] theorem takeReset_out (s : State) : (takeReset s).out = State.reset.out := rfl
@[simp] theorem takeReset_block (s : State) : (takeReset s).block = State.reset.block := rfl
@[simp] theorem takeReset_inbuf (s : State) : (takeReset s).inbuf = State.reset.inbuf := rfl
@[simp] theorem takeReset_pending (s : State) : (takeReset s).pending = State.reset.pending := rfl
@[simp] theorem takeReset_done (s : State) : (takeReset s).done = State.reset.done := rfl
@[simp] theorem takeReset_err (s : State) : (takeReset s).err = State.reset.err := rfl
@[simp] theorem takeReset_errcode (s : State) : (takeReset s).errcode = State.reset.errcode := rfl
@[simp] theorem takeReset_delay (s : State) : (takeReset s).delay = State.reset.delay := rfl
@[simp] theorem takeReset_draws (s : State) : (takeReset s).draws = s.draws := rfl
@[simp] theorem takeReset_resetAfter (s : State) : (takeReset s).resetAfter = s.resetAfter.tail := rfl
@[simp] theorem takeReset_program (s : State) : (takeReset s).program = s.program := rfl
@[simp] theorem takeReset_line (s : State) : (takeReset s).line = s.line := rfl
@[simp] theorem takeReset_names (s : State) : (takeReset s).names = s.names := rfl

/-! raiseError -/

@[simp] theorem raiseError_salt (e : ErrorCode) (s : State) : (raiseError e s).salt = s.salt := by
  unfold raiseError; split <;> simp_all
@[simp] theorem raiseError_key (e : ErrorCode) (s : State) : (raiseError e s).key = s.key := by
  unfold raiseError; split <;> simp_all
@[simp] theorem raiseError_digest (e : ErrorCode) (s : State) : (raiseError e s).digest = s.digest := by
  unfold raiseError; split <;> simp_all
@[simp] theorem raiseError_out (e : ErrorCode) (s : State) : (raiseError e s).out = s.out := by
  unfold raiseError; split <;> simp_all
@[simp] theorem raiseError_block (e : ErrorCode) (s : State) : (raiseError e s).block = s.block := by
  unfold raiseError; split <;> simp_all
@[simp] theorem raiseError_inbuf (e : ErrorCode) (s : State) : (raiseError e s).inbuf = s.inbuf := by
  unfold raiseError; split <;> simp_all
@[simp] theorem raiseError_pending (e : ErrorCode) (s : State) : (raiseError e s).pending = s.pending := by
  unfold raiseError; split <;> simp_all
@[simp] theorem raiseError_done (e : ErrorCode) (s : State) : (raiseError e s).done = s.done := by
  unfold raiseError; split <;> simp_all
@[simp] theorem raiseError_err (e : ErrorCode) (s : State) : (raiseError e s).err = true := by
  unfold raiseError; split <;> simp_all
@[simp] theorem raiseError_errcode (e : ErrorCode) (s : State) : (raiseError e s).errcode = if s.err then s.errcode else e.code := by
  unfold raiseError; split <;> simp_all
@[simp] theorem raiseError_delay (e : ErrorCode) (s : State) : (raiseError e s).delay = s.delay := by
  unfold raiseError; split <;> simp_all
@[simp] theorem raiseError_draws (e : ErrorCode) (s : State) : (raiseError e s).draws = s.draws := by
  unfold raiseError; split <;> simp_all
@[simp] theorem raiseError_resetAfter (e : ErrorCode) (s : State) : (raiseError e s).resetAfter = s.resetAfter := by
  unfold raiseError; split <;> simp_all
@[simp] theorem raiseError_program (e : ErrorCode) (s : State) : (raiseError e s).program = s.program := by
  unfold raiseError; split <;> simp_all
@[simp] theorem raiseError_line (e : ErrorCode) (s : State) : (raiseError e s).line = s.line := by
  unfold raiseError; split <;> simp_all
@[simp] theorem raiseError_names (e : ErrorCode) (s : State) : (raiseError e s).names = s.names := by
  unfold raiseError; split <;> simp_all

/-! rejectCommand -/

@[simp] theorem rejectCommand_salt (e : ErrorCode) (s : State) : (rejectCommand e s).salt = s.salt := by
  simp [rejectCommand]
@[simp] theorem rejectCommand_key (e : ErrorCode) (s : State) : (rejectCommand e s).key = s.key := by
  simp [rejectCommand]
@[simp] theorem rejectCommand_digest (e : ErrorCode) (s : State) : (rejectCommand e s).digest = s.digest := by
  simp [rejectCommand]
@[simp] theorem rejectCommand_out (e : ErrorCode) (s : State) : (rejectCommand e s).out = s.out := by
  simp [rejectCommand]
@[simp] theorem rejectCommand_block (e : ErrorCode) (s : State) : (rejectCommand e s).block = s.block := by
  simp [rejectCommand]
@[simp] theorem rejectCommand_inbuf (e : ErrorCode) (s : State) : (rejectCommand e s).inbuf = s.inbuf := by
  simp [rejectCommand]
@[simp] theorem rejectCommand_pending (e : ErrorCode) (s : State) : (rejectCommand e s).pending = s.pending := by
  simp [rejectCommand]
@[simp] theorem rejectCommand_done (e : ErrorCode) (s : State) : (rejectCommand e s).done = true := by
  simp [rejectCommand]
@[simp] theorem rejectCommand_err (e : ErrorCode) (s : State) : (rejectCommand e s).err = true := by
  simp [rejectCommand]
@[simp] theorem rejectCommand_errcode (e : ErrorCode) (s : State) : (rejectCommand e s).errcode = if s.err then s.errcode else e.code := by
  simp [rejectCommand]
@[simp] theorem rejectCommand_delay (e : ErrorCode) (s : State) : (rejectCommand e s).delay = s.delay := by
  simp [rejectCommand]
@[simp] theorem rejectCommand_draws (e : ErrorCode) (s : State) : (rejectCommand e s).draws = s.draws := by
  simp [rejectCommand]
@[simp] theorem rejectCommand_resetAfter (e : ErrorCode) (s : State) : (rejectCommand e s).resetAfter = s.resetAfter := by
  simp [rejectCommand]
@[simp] theorem rejectCommand_program (e : ErrorCode) (s : State) : (rejectCommand e s).program = s.program := by
  simp [rejectCommand]
@[simp] theorem rejectCommand_line (e : ErrorCode) (s : State) : (rejectCommand e s).line = s.line := by
  simp [rejectCommand]
@[simp] theorem rejectCommand_names (e : ErrorCode) (s : State) : (rejectCommand e s).names = s.names := by
  simp [rejectCommand]

/-! drawn -/

@[simp] theorem drawn_salt (o n : Nat) (s : State) : (drawn o n s).salt = s.salt := by
  unfold drawn; split <;> rfl
@[simp] theorem drawn_key (o n : Nat) (s : State) : (drawn o n s).key = s.key := by
  unfold drawn; split <;> rfl
@[simp] theorem drawn_digest (o n : Nat) (s : State) : (drawn o n s).digest = s.digest := by
  unfold drawn; split <;> rfl
@[simp] theorem drawn_out (o n : Nat) (s : State) : (drawn o n s).out = s.out := by
  unfold drawn; split <;> rfl
@[simp] theorem drawn_block (o n : Nat) (s : State) : (drawn o n s).block = s.block := by
  unfold drawn; split <;> rfl
@[simp] theorem drawn_inbuf (o n : Nat) (s : State) : (drawn o n s).inbuf = s.inbuf := by
  unfold drawn; split <;> rfl
@[simp] theorem drawn_pending (o n : Nat) (s : State) : (drawn o n s).pending = s.pending := by
  unfold drawn; split <;> rfl
@[simp] theorem drawn_done (o n : Nat) (s : State) : (drawn o n s).done = s.done := by
  unfold drawn; split <;> rfl
@[simp] theorem drawn_err (o n : Nat) (s : State) : (drawn o n s).err = s.err := by
  unfold drawn; split <;> rfl
@[simp] theorem drawn_errcode (o n : Nat) (s : State) : (drawn o n s).errcode = s.errcode := by
  unfold drawn; split <;> rfl
@[simp] theorem drawn_delay (o n : Nat) (s : State) : (drawn o n s).delay = s.delay := by
  unfold drawn; split <;> rfl
@[simp] theorem drawn_draws (o n : Nat) (s : State) : (drawn o n s).draws = if resultHazard o s then s.draws + n else s.draws := by
  unfold drawn; split <;> rfl
@[simp] theorem drawn_resetAfter (o n : Nat) (s : State) : (drawn o n s).resetAfter = s.resetAfter := by
  unfold drawn; split <;> rfl
@[simp] theorem drawn_program (o n : Nat) (s : State) : (drawn o n s).program = s.program := by
  unfold drawn; split <;> rfl
@[simp] theorem drawn_line (o n : Nat) (s : State) : (drawn o n s).line = s.line := by
  unfold drawn; split <;> rfl
@[simp] theorem drawn_names (o n : Nat) (s : State) : (drawn o n s).names = s.names := by
  unfold drawn; split <;> rfl

/-- All that recording an error does (60_exceptions.md R245). -/
theorem raiseError_eq (e : ErrorCode) (s : State) :
    raiseError e s = { s with err := true, errcode := if s.err then s.errcode else e.code } := by
  unfold raiseError
  cases s; rename_i err _ _ _ _ _ _ _
  cases err <;> rfl

/-- All that rejecting a command does (60_exceptions.md R247). -/
theorem rejectCommand_eq (e : ErrorCode) (s : State) :
    rejectCommand e s = { s with done := true, err := true, errcode := if s.err then s.errcode else e.code } := by
  rw [rejectCommand, raiseError_eq]

end Sys2Proof.Machine
end

