-- ==== Sys2Proof/Laws/Window.lean ====
section
/-! SUPPORT. The register window: where the regions lie, what a store changes and what it leaves, and what each host
transaction can do. -/

namespace Sys2Proof.Machine

theorem inBytes_mod4 : Config.inBytes % 4 = 0 := by unfold Config.inBytes; omega

theorem inBytes_le : Config.inBytes ≤ 32768 := by unfold Config.inBytes; omega

theorem le_inBytes : 32 ≤ Config.inBytes := by unfold Config.inBytes; omega

/-- No two entries of a window map overlap, and they stand in rising order. -/
def disjointEntries (m : List WindowEntry) : Prop := m.Pairwise fun a b => a.base + a.size ≤ b.base

theorem windowMap_disjoint : disjointEntries windowMap := by
  simp [disjointEntries, windowMap, inbufBase]

/-- What the lookup answers is reserved or an entry that covers the offset. -/
theorem regionIn_cases (m : List WindowEntry) (o : Nat) :
    (regionIn m o = .reserved ∧ ∀ e ∈ m, ¬ (e.base ≤ o ∧ o < e.base + e.size)) ∨
    ∃ e ∈ m, e.region = regionIn m o ∧ e.base ≤ o ∧ o < e.base + e.size := by
  induction m with
  | nil => simp [regionIn]
  | cons e rest ih =>
    unfold regionIn
    split_ifs with h
    · exact .inr ⟨e, by simp, rfl, h.1, by omega⟩
    · rcases ih with ⟨hr, hn⟩ | ⟨f, hf, hg⟩
      · exact .inl ⟨hr, by simpa only [List.forall_mem_cons] using ⟨by omega, hn⟩⟩
      · exact .inr ⟨f, by simp [hf], hg⟩

/-- An entry answers for every offset it covers. -/
theorem regionIn_of_mem {m : List WindowEntry} (hm : disjointEntries m) {e : WindowEntry} (he : e ∈ m) {o : Nat}
    (lo : e.base ≤ o) (hi : o < e.base + e.size) : regionIn m o = e.region := by
  induction m with
  | nil => simp at he
  | cons f rest ih =>
    obtain ⟨hf, hrest⟩ := List.pairwise_cons.mp hm
    unfold regionIn
    rcases List.mem_cons.mp he with rfl | he'
    · rw [if_pos ⟨lo, by omega⟩]
    · rw [if_neg (by have := hf e he'; omega)]
      exact ih hrest he'

theorem regionOf_of_mem {e : WindowEntry} (he : e ∈ windowMap) {o : Nat} (lo : e.base ≤ o)
    (hi : o < e.base + e.size) : regionOf o = e.region := regionIn_of_mem windowMap_disjoint he lo hi

/-- Where each region lies (20_memory.md R71); nothing is said of the reserved offsets. -/
def Region.Holds (o : Nat) : Region → Prop
  | .cmd => o < 0x4
  | .status => 0x4 ≤ o ∧ o < 0x8
  | .id => 0x8 ≤ o ∧ o < 0xC
  | .cap => 0xC ≤ o ∧ o < 0x10
  | .salt => 0x10 ≤ o ∧ o < 0x14
  | .key => 0x18 ≤ o ∧ o < 0x20
  | .digest => 0x20 ≤ o ∧ o < 0x30
  | .out => 0x30 ≤ o ∧ o < 0x38
  | .block => 0x40 ≤ o ∧ o < 0x60
  | .ktab => 0x100 ≤ o ∧ o < 0x120
  | .sbox => 0x200 ≤ o ∧ o < 0x300
  | .inbuf => inbufBase ≤ o ∧ o < inbufBase + Config.inBytes
  | .reserved => True

theorem regionOf_holds (o : Nat) : (regionOf o).Holds o := by
  rcases regionIn_cases windowMap o with ⟨hr, -⟩ | ⟨e, he, hr, lo, hi⟩
  · rw [regionOf, hr]; trivial
  · rw [regionOf, ← hr]
    simp only [windowMap, List.mem_cons, List.not_mem_nil, or_false] at he
    rcases he with rfl | rfl | rfl | rfl | rfl | rfl | rfl | rfl | rfl | rfl | rfl | rfl <;>
      simp only [Region.Holds] <;> simp_all

/-- The offsets of a region, from the region. -/
theorem regionOf_bounds {o : Nat} {r : Region} (h : regionOf o = r) : r.Holds o := h ▸ regionOf_holds o

theorem regionOf_eq_inbuf {o : Nat} :
    regionOf o = .inbuf ↔ inbufBase ≤ o ∧ o < inbufBase + Config.inBytes :=
  ⟨regionOf_bounds, fun ⟨lo, hi⟩ =>
    regionOf_of_mem (e := ⟨inbufBase, Config.inBytes, .inbuf⟩) (by simp [windowMap]) lo hi⟩

/-- The reserved ranges (20_memory.md R71). -/
theorem regionOf_eq_reserved {o : Nat} :
    regionOf o = .reserved ↔
      (0x14 ≤ o ∧ o < 0x18) ∨ (0x38 ≤ o ∧ o < 0x40) ∨ (0x60 ≤ o ∧ o < 0x100) ∨ (0x120 ≤ o ∧ o < 0x200) ∨
        (0x300 ≤ o ∧ o < inbufBase) ∨ inbufBase + Config.inBytes ≤ o := by
  rcases regionIn_cases windowMap o with ⟨hr, hn⟩ | ⟨e, he, hr, lo, hi⟩
  · simp only [windowMap, List.forall_mem_cons, inbufBase] at hn ⊢
    rw [regionOf, hr]
    simp only [true_iff]
    omega
  · rw [regionOf, ← hr]
    simp only [windowMap, List.mem_cons, List.not_mem_nil, or_false] at he
    rcases he with rfl | rfl | rfl | rfl | rfl | rfl | rfl | rfl | rfl | rfl | rfl | rfl <;>
      simp only [inbufBase, reduceCtorEq, false_iff] at lo hi ⊢ <;> omega

/-- Every register starts at a multiple of 4 and its size is one (20_memory.md R71). -/
theorem windowMap_aligned {e : WindowEntry} (he : e ∈ windowMap) : e.base % 4 = 0 ∧ e.size % 4 = 0 := by
  have := inBytes_mod4
  simp only [windowMap, List.mem_cons, List.not_mem_nil, or_false] at he
  rcases he with rfl | rfl | rfl | rfl | rfl | rfl | rfl | rfl | rfl | rfl | rfl | rfl <;>
    simp [inbufBase, this]

/-- The four bytes of an aligned word belong to one region (20_memory.md R71). -/
theorem regionOf_aligned {a j : Nat} (ha : a % 4 = 0) (hj : j < 4) : regionOf (a + j) = regionOf a := by
  rcases regionIn_cases windowMap a with ⟨hr, hn⟩ | ⟨e, he, hr, lo, hi⟩
  · rcases regionIn_cases windowMap (a + j) with ⟨hr', -⟩ | ⟨e, he, -, lo, hi⟩
    · rw [regionOf, regionOf, hr, hr']
    · have := windowMap_aligned he
      exact absurd ⟨by omega, by omega⟩ (hn e he)
  · have := windowMap_aligned he
    rw [regionOf, regionOf, ← hr]
    exact regionIn_of_mem windowMap_disjoint he (by omega) (by omega)

/-- A byte store changes no more than one of SALT, KEY, DIGEST, BLOCK and INBUF. -/
theorem storeByte_cases (o : Nat) (b : Byte) (s : State) :
    (regionOf o = .salt ∧ storeByte o b s = { s with salt := setByte s.salt (o - 0x10) b }) ∨
    (regionOf o = .key ∧ storeByte o b s = { s with key := setByte s.key (o - 0x18) b }) ∨
    (regionOf o = .digest ∧ storeByte o b s = { s with digest := setByte s.digest (o - 0x20) b }) ∨
    (regionOf o = .block ∧ storeByte o b s = { s with block := setByte s.block (o - 0x40) b }) ∨
    (regionOf o = .inbuf ∧ storeByte o b s = { s with inbuf := cellInsert o b s.inbuf }) ∨
    ((regionOf o).writable = false ∧ storeByte o b s = s) := by
  unfold storeByte
  cases h : regionOf o <;> simp [Region.writable]

@[simp] theorem storeByte_pending (o : Nat) (b : Byte) (s : State) : (storeByte o b s).pending = s.pending := by
  unfold storeByte; split <;> rfl

@[simp] theorem storeByte_done (o : Nat) (b : Byte) (s : State) : (storeByte o b s).done = s.done := by
  unfold storeByte; split <;> rfl

@[simp] theorem storeByte_err (o : Nat) (b : Byte) (s : State) : (storeByte o b s).err = s.err := by
  unfold storeByte; split <;> rfl

@[simp] theorem storeByte_errcode (o : Nat) (b : Byte) (s : State) : (storeByte o b s).errcode = s.errcode := by
  unfold storeByte; split <;> rfl

@[simp] theorem storeByte_delay (o : Nat) (b : Byte) (s : State) : (storeByte o b s).delay = s.delay := by
  unfold storeByte; split <;> rfl

@[simp] theorem storeByte_draws (o : Nat) (b : Byte) (s : State) : (storeByte o b s).draws = s.draws := by
  unfold storeByte; split <;> rfl

@[simp] theorem storeByte_resetAfter (o : Nat) (b : Byte) (s : State) : (storeByte o b s).resetAfter = s.resetAfter := by
  unfold storeByte; split <;> rfl

@[simp] theorem storeByte_program (o : Nat) (b : Byte) (s : State) : (storeByte o b s).program = s.program := by
  unfold storeByte; split <;> rfl

@[simp] theorem storeByte_line (o : Nat) (b : Byte) (s : State) : (storeByte o b s).line = s.line := by
  unfold storeByte; split <;> rfl

@[simp] theorem storeByte_names (o : Nat) (b : Byte) (s : State) : (storeByte o b s).names = s.names := by
  unfold storeByte; split <;> rfl

@[simp] theorem storeByte_out (o : Nat) (b : Byte) (s : State) : (storeByte o b s).out = s.out := by
  unfold storeByte; split <;> rfl

@[simp] theorem storeBytes_pending (o : Nat) (bs : List Byte) (s : State) : (storeBytes o bs s).pending = s.pending := by
  induction bs generalizing o s <;> simp_all [storeBytes]

@[simp] theorem storeBytes_done (o : Nat) (bs : List Byte) (s : State) : (storeBytes o bs s).done = s.done := by
  induction bs generalizing o s <;> simp_all [storeBytes]

@[simp] theorem storeBytes_err (o : Nat) (bs : List Byte) (s : State) : (storeBytes o bs s).err = s.err := by
  induction bs generalizing o s <;> simp_all [storeBytes]

@[simp] theorem storeBytes_errcode (o : Nat) (bs : List Byte) (s : State) : (storeBytes o bs s).errcode = s.errcode := by
  induction bs generalizing o s <;> simp_all [storeBytes]

@[simp] theorem storeBytes_delay (o : Nat) (bs : List Byte) (s : State) : (storeBytes o bs s).delay = s.delay := by
  induction bs generalizing o s <;> simp_all [storeBytes]

@[simp] theorem storeBytes_draws (o : Nat) (bs : List Byte) (s : State) : (storeBytes o bs s).draws = s.draws := by
  induction bs generalizing o s <;> simp_all [storeBytes]

@[simp] theorem storeBytes_resetAfter (o : Nat) (bs : List Byte) (s : State) : (storeBytes o bs s).resetAfter = s.resetAfter := by
  induction bs generalizing o s <;> simp_all [storeBytes]

@[simp] theorem storeBytes_program (o : Nat) (bs : List Byte) (s : State) : (storeBytes o bs s).program = s.program := by
  induction bs generalizing o s <;> simp_all [storeBytes]

@[simp] theorem storeBytes_line (o : Nat) (bs : List Byte) (s : State) : (storeBytes o bs s).line = s.line := by
  induction bs generalizing o s <;> simp_all [storeBytes]

@[simp] theorem storeBytes_names (o : Nat) (bs : List Byte) (s : State) : (storeBytes o bs s).names = s.names := by
  induction bs generalizing o s <;> simp_all [storeBytes]

@[simp] theorem storeBytes_out (o : Nat) (bs : List Byte) (s : State) : (storeBytes o bs s).out = s.out := by
  induction bs generalizing o s <;> simp_all [storeBytes]

@[simp] theorem storeByte_busy (o : Nat) (b : Byte) (s : State) : busy (storeByte o b s) = busy s := by simp [busy]

@[simp] theorem storeBytes_busy (o : Nat) (bs : List Byte) (s : State) : busy (storeBytes o bs s) = busy s := by
  simp [busy]

@[simp] theorem storeByte_status (o : Nat) (b : Byte) (s : State) : status (storeByte o b s) = status s := by
  simp [status]

/-- Read after write, and every other byte of the window left alone (20_memory.md R78, 10_state.md R51). -/
theorem windowByte_storeByte {o : Nat} (b : Byte) (s : State) (h : (regionOf o).writable = true) (p : Nat) :
    windowByte p (storeByte o b s) = if p = o then some b else windowByte p s := by
  have hp := regionOf_holds p
  rcases storeByte_cases o b s with ⟨hr, he⟩ | ⟨hr, he⟩ | ⟨hr, he⟩ | ⟨hr, he⟩ | ⟨hr, he⟩ | ⟨hr, he⟩
  case inr.inr.inr.inr.inr => simp [hr] at h
  all_goals
    have ho := regionOf_bounds hr
    simp only [Region.Holds] at ho
    rw [he]
    by_cases hpo : p = o
    · subst hpo
      simp [windowByte, hr, byteAt_setByte, cellFind_insert]
      try omega
    · rw [if_neg hpo]
      unfold windowByte
      cases hq : regionOf p <;> simp only [hq, Region.Holds] at hp <;>
        simp [byteAt_setByte, cellFind_insert, hpo, status, busy]
      try omega

/-- Stores keep the canonical form of INBUF. -/
theorem storeByte_wf {o : Nat} {b : Byte} {s : State} (h : Memory.wf s.inbuf = true) :
    Memory.wf (storeByte o b s).inbuf = true := by
  rcases storeByte_cases o b s with ⟨hr, he⟩ | ⟨hr, he⟩ | ⟨hr, he⟩ | ⟨hr, he⟩ | ⟨hr, he⟩ | ⟨hr, he⟩ <;> rw [he] <;>
    try exact h
  have := regionOf_eq_inbuf.mp hr
  exact memory_wf_insert h this.1 this.2

theorem storeBytes_wf {o : Nat} {bs : List Byte} {s : State} (h : Memory.wf s.inbuf = true) :
    Memory.wf (storeBytes o bs s).inbuf = true := by
  induction bs generalizing o s with
  | nil => exact h
  | cons b bs ih => exact ih (storeByte_wf h)

/-- All that presenting a command can do (44_control.md R210). -/
theorem presentCommand_cases (w : Word) (s : State) :
    (busy s = true ∧ presentCommand w s = raiseError .busy s) ∨
    (busy s = false ∧ (∃ e, decode w = .error e) ∧ presentCommand w s = rejectCommand .illegal s) ∨
    (busy s = false ∧ ∃ i, decode w = .ok i ∧ tooLong i = true ∧ presentCommand w s = rejectCommand .length s) ∨
    (busy s = false ∧ ∃ i, decode w = .ok i ∧ tooLong i = false ∧ presentCommand w s = acceptCommand i s) := by
  unfold presentCommand
  cases hb : busy s <;> simp
  cases hd : decode w with
  | error e => simp
  | ok i => cases ht : tooLong i <;> simp [ht]

/-- All that a host write can do at an offset its width allows (20_memory.md R82). -/
theorem windowWrite_cases (whole : Bool) (o : Nat) (v : Word) (s : State) :
    (regionOf o = .cmd ∧ whole = true ∧ windowWrite whole o v s = presentCommand v s) ∨
    (regionOf o = .status ∧ windowWrite whole o v s = statusW1C v s) ∨
    ((regionOf o).writable = true ∧ busy s = true ∧ windowWrite whole o v s = raiseError .busy s) ∨
    ((regionOf o).writable = true ∧ busy s = false ∧
      windowWrite whole o v s = storeBytes o (if whole then wordBytes v else [v.truncate 8]) s) ∨
    windowWrite whole o v s = s := by
  unfold windowWrite
  cases h : regionOf o <;> cases whole <;> cases hb : busy s <;> simp [Region.writable]
  all_goals by_cases h7 : o = 7 <;> simp [h7]

/-- All that HostWrite can do. -/
theorem hostWrite_cases (width : Width) (off : Offset) (v : Word) (s : State) :
    (width = .w8 ∧ hostWrite width off v s = .next (windowWrite false off.toNat v s)) ∨
    (width = .w32 ∧ off.toNat % 4 = 0 ∧ hostWrite width off v s = .next (windowWrite true off.toNat v s)) ∨
    (width = .w32 ∧ off.toNat % 4 ≠ 0 ∧ hostWrite width off v s = .refused .misalignedAccess) ∨
    ((width = .w16 ∨ width = .w64) ∧ hostWrite width off v s = .refused .unsupportedWidth) := by
  cases width <;> simp [hostWrite]
  exact Classical.em _

/-- All that HostRead can do. -/
theorem hostRead_cases (width : Width) (off : Offset) (s : State) :
    (∃ v n, hostRead width off s = .next (v, drawn off.toNat n s)) ∨
    hostRead width off s = .fault .inbufReadUnwritten ∨
    (width = .w32 ∧ off.toNat % 4 ≠ 0 ∧ hostRead width off s = .refused .misalignedAccess) ∨
    ((width = .w16 ∨ width = .w64) ∧ hostRead width off s = .refused .unsupportedWidth) := by
  cases width <;> simp only [hostRead]
  · split
    · exact .inl ⟨_, _, rfl⟩
    · exact .inr (.inl rfl)
  · simp
  · split_ifs
    · split
      · exact .inl ⟨_, _, rfl⟩
      · exact .inr (.inl rfl)
    · simp_all
  · simp

/-- What a read that answers a value leaves: the state, but for the count of free values. -/
theorem hostRead_next {width : Width} {off : Offset} {s u : State} {v : Word}
    (h : hostRead width off s = .next (v, u)) : ∃ n, u = drawn off.toNat n s := by
  rcases hostRead_cases width off s with ⟨v', n, hh⟩ | hh | ⟨_, _, hh⟩ | ⟨_, hh⟩ <;> rw [hh] at h <;> simp at h
  exact ⟨n, h.2.symm⟩

/-- A byte of the window is missing exactly where INBUF is unwritten (R90). -/
theorem readByte_eq_none {k o : Nat} {s : State} :
    readByte k o s = none ↔ regionOf o = .inbuf ∧ cellFind s.inbuf o = none := by
  unfold readByte resultHazard windowByte
  cases regionOf o <;> simp [Region.hazardous] <;> split <;> simp

/-- A byte read of the idle engine shows the window's byte and changes nothing (20_memory.md R79, R82). -/
theorem hostRead_byte_idle {s : State} (hb : busy s = false) {off : Offset} {w : Word} :
    hostRead .w8 off s = .next (w, s) ↔ ∃ b, windowByte off.toNat s = some b ∧ w = b.zeroExtend 32 := by
  simp only [hostRead, readByte, resultHazard, hb, Bool.false_and, Bool.false_eq_true, if_false, drawn]
  cases windowByte off.toNat s <;> simp [eq_comm]

/-- A write to an RW data register of the idle engine is a store. -/
theorem windowWrite_store {s : State} {o : Nat} {v : Word} {whole : Bool} (hw : (regionOf o).writable = true)
    (hb : busy s = false) :
    windowWrite whole o v s = storeBytes o (if whole then wordBytes v else [v.truncate 8]) s := by
  unfold windowWrite
  cases hr : regionOf o <;> simp [hr, Region.writable] at hw ⊢ <;> simp [hb]

/-- While a command is pending a host write does nothing, records E_BUSY, or clears STATUS bits. -/
theorem hostWrite_busy {s t : State} {width : Width} {off : Offset} {v : Word} (hb : busy s = true)
    (h : hostWrite width off v s = .next t) : t = s ∨ t = raiseError .busy s ∨ t = statusW1C v s := by
  have key : ∀ whole, windowWrite whole off.toNat v s = s ∨ windowWrite whole off.toNat v s = raiseError .busy s ∨
      windowWrite whole off.toNat v s = statusW1C v s := by
    intro whole
    rcases windowWrite_cases whole off.toNat v s with ⟨_, _, h⟩ | ⟨_, h⟩ | ⟨_, _, h⟩ | ⟨_, h1, _⟩ | h
    · rw [h]; simp [presentCommand, hb]
    · simp [h]
    · simp [h]
    · simp [hb] at h1
    · simp [h]
  rcases hostWrite_cases width off v s with ⟨_, hh⟩ | ⟨_, _, hh⟩ | ⟨_, _, hh⟩ | ⟨_, hh⟩ <;> rw [hh] at h <;> simp at h
  · exact h ▸ key false
  · exact h ▸ key true

/-- A host write keeps an error on record, unless it reaches STATUS as a word or at 0x0007 (60_exceptions.md R245). -/
theorem windowWrite_err {s : State} {whole : Bool} {o : Nat} {v : Word} (he : s.err = true) :
    (regionOf o = .status ∧ (whole = true ∨ o = 7) ∧ windowWrite whole o v s = statusW1C v s) ∨
    ((regionOf o = .status → whole = false ∧ o ≠ 7) ∧ (windowWrite whole o v s).err = true ∧
      (windowWrite whole o v s).errcode = s.errcode) := by
  by_cases hs : regionOf o = .status
  · cases whole <;> by_cases h7 : o = 7 <;> simp_all [windowWrite]
  · right
    refine ⟨fun h => absurd h hs, ?_⟩
    rcases windowWrite_cases whole o v s with ⟨_, _, h⟩ | ⟨h, _⟩ | ⟨_, _, h⟩ | ⟨_, _, h⟩ | h
    · rcases presentCommand_cases v s with ⟨_, hp⟩ | ⟨_, _, hp⟩ | ⟨_, _, _, _, hp⟩ | ⟨_, _, _, _, hp⟩ <;>
        rw [h, hp] <;> simp [raiseError, rejectCommand, he]
    · exact absurd h hs
    · simp [h, raiseError, he]
    · simp [h, he]
    · simp [h, he]

/-- What a line that writes leaves: HostWrite's state, at the next line. -/
theorem hostStore_next {width : Width} {off : Offset} {v : Word} {s t : State} (h : hostStore width off v s = .next t) :
    ∃ u, hostWrite width off v s = .next u ∧ t = nextLine u := by
  unfold hostStore at h
  split at h <;> simp_all

/-- All that a line of the host's program can do. -/
theorem hostOp_cases {op : HostOp} {s t : State} (h : hostOp op s = .next t) :
    (∃ width off v u, lineWrite s op = some (width, off, v) ∧ hostWrite width off v s = .next u ∧ t = nextLine u) ∨
    (∃ width off name v u, op = .rd width off name ∧ hostRead width off s = .next (v, u) ∧
      t = nextLine { u with names := cellInsert name v u.names }) ∨
    (∃ name mask label, op = .bnz name mask label ∧ ∃ k, t = { s with line := k }) := by
  unfold hostOp at h
  split at h
  · obtain ⟨u, hu, ht⟩ := hostStore_next h
    exact .inl ⟨_, _, _, u, rfl, hu, ht⟩
  · obtain ⟨u, hu, ht⟩ := hostStore_next h
    exact .inl ⟨_, _, _, u, rfl, hu, ht⟩
  · rename_i width off name
    split at h <;> simp_all
  · rename_i name mask label
    unfold hostBranch at h
    right; right
    refine ⟨name, mask, label, rfl, ?_⟩
    split_ifs at h
    · injection h with h; exact ⟨s.line + 1, by rw [← h]; rfl⟩
    · split at h
      · injection h with h; exact ⟨_, h.symm⟩
      · simp at h

/-- All that the host's step can do. -/
theorem hostStep_cases {s t : State} (h : hostStep s = .next t) :
    (s.program[s.line]? = none ∧ t = s) ∨ ∃ l, s.program[s.line]? = some l ∧ hostOp l.op s = .next t := by
  unfold hostStep at h
  split at h
  · rename_i l hl; exact .inr ⟨l, hl, h⟩
  · rename_i hl; injection h with h; exact .inl ⟨hl, h.symm⟩

end Sys2Proof.Machine
end

