-- ==== Sys2Proof/Laws/Lines.lean ====
section
/-! SUPPORT. Runs of host lines, and the words of byte arrays that they carry. -/

namespace Sys2Proof

open Machine

/-- Host lines run one part after the other. -/
theorem runLines_append (a b : List HostLine) (s : State) :
    runLines (a ++ b) s =
      match runLines a s with
      | .next t => runLines b t
      | .fault f => .fault f
      | .refused r => .refused r := by
  induction a generalizing s with
  | nil => rfl
  | cons l a ih => simp only [List.cons_append, runLines]; cases hostOp l.op s <;> simp [ih]

/-- What a line writes does not depend on the model's schedule. -/
@[simp] theorem lineWrite_tick (s : State) (op : HostOp) : lineWrite (tick s) op = lineWrite s op := by cases op <;> rfl

/-- A byte of the word that the host writes for a byte array is the array's byte (30_encoding.md R118). -/
theorem wordByte_wordOf {n : Nat} (v : Vector Byte n) (i : Nat) : wordByte (wordOf v (i / 4)) (i % 4) = byteAt v i := by
  have h := wordBytes_wordOfBytes (byteAt v (4 * (i / 4))) (byteAt v (4 * (i / 4) + 1)) (byteAt v (4 * (i / 4) + 2))
    (byteAt v (4 * (i / 4) + 3))
  simp only [wordBytes, List.cons.injEq, and_true] at h
  obtain ⟨h0, h1, h2, h3⟩ := h
  have hi : i % 4 < 4 := Nat.mod_lt _ (by decide)
  unfold wordOf
  interval_cases hm : i % 4
  · rw [h0]; congr 1; omega
  · rw [h1]; congr 1; omega
  · rw [h2]; congr 1; omega
  · rw [h3]; congr 1; omega

end Sys2Proof
end

