-- ==== Sys2Proof/Laws/PerInstr.lean ====
section
/-! SUPPORT. Facts about each command as syntax, one lemma for each constructor. -/

namespace Sys2Proof.Laws.EncodingRow

/-- The word of a well-formed command fits the command's own row of 30_encoding.md R113, and its reserved bits
[15:4] are 0. -/
def Statement (i : Instr) : Prop :=
  i.wellFormed = true → (opcodeRow i).fits (encode i) = true ∧ rsvField (encode i) = 0#12

theorem nop : Statement .nop := fun _ => ⟨by decide, by decide⟩

theorem stretch (len : Nat) : Statement (.stretch len) := by
  intro _
  refine ⟨?_, rsvField_commandWord _ _⟩
  simp only [opcodeRow, OpcodeRow.fits, beq_iff_eq, encode, commandWord]
  apply BitVec.eq_of_getLsbD_eq
  intro i hi
  simp only [BitVec.getLsbD_and, BitVec.getLsbD_append]
  interval_cases i <;> simp

theorem diffuse : Statement .diffuse := fun _ => ⟨by decide, by decide⟩

theorem cipher : Statement .cipher := fun _ => ⟨by decide, by decide⟩

end Sys2Proof.Laws.EncodingRow
end

