-- ==== Sys2Proof/Laws/Step.lean ====
section
/-! SUPPORT. What the completion step of each command and a step of the whole system can do. -/

namespace Sys2Proof.Machine

/-- All that a completion step can do when it answers a next state (44_control.md R211). -/
theorem exec_cases {i : Instr} {s t : State} (h : exec i s = .next t) :
    (i = .nop ∧ t = completed s) ∨
    (∃ len bytes, i = .stretch len ∧ len ≤ Config.inBytes ∧ inbufBytes len s = some bytes ∧
      t = completed { s with block := stretch bytes len }) ∨
    (i = .diffuse ∧ t = completed { s with digest := diffuse s.salt s.block }) ∨
    (i = .cipher ∧ t = completed { s with out := cipher s.key s.digest }) := by
  cases i with
  | nop => injection h with h; exact .inl ⟨rfl, h.symm⟩
  | stretch len =>
    simp only [exec, execStretch] at h
    split_ifs at h with hl
    split at h
    · rename_i bytes hb
      injection h with h
      exact .inr (.inl ⟨len, bytes, rfl, hl, hb, h.symm⟩)
    · simp at h
  | diffuse => injection h with h; exact .inr (.inr (.inl ⟨rfl, h.symm⟩))
  | cipher => injection h with h; exact .inr (.inr (.inr ⟨rfl, h.symm⟩))

/-- Whose turn it is, from the fields that decide it. -/
theorem turn_cases (s : State) :
    (resetDue s = true ∧ turn s = .reset) ∨
    (resetDue s = false ∧ ∃ i, s.pending = some i ∧ s.delay = 0 ∧ turn s = .engine i) ∨
    (resetDue s = false ∧ (∃ i, s.pending = some i) ∧ s.delay ≠ 0 ∧ turn s = .host) ∨
    (resetDue s = false ∧ s.pending = none ∧ turn s = .host) := by
  unfold turn
  cases resetDue s <;> simp
  cases hp : s.pending with
  | none => simp
  | some i => by_cases hd : s.delay = 0 <;> simp [hd]

/-- All that a step can do when it answers a next state. -/
theorem step_cases {s t : State} (h : step s = .next t) :
    (resetDue s = true ∧ t = takeReset s) ∨
    (resetDue s = false ∧ ∃ i, s.pending = some i ∧ s.delay = 0 ∧ exec i (tick s) = .next t) ∨
    (resetDue s = false ∧ (s.pending = none ∨ s.delay ≠ 0) ∧ hostStep (tick s) = .next t) := by
  unfold step at h
  rcases turn_cases s with ⟨hr, ht⟩ | ⟨hr, i, hp, hd, ht⟩ | ⟨hr, -, hd, ht⟩ | ⟨hr, hp, ht⟩ <;> rw [ht] at h
  · injection h with h; exact .inl ⟨hr, h.symm⟩
  · exact .inr (.inl ⟨hr, i, hp, hd, h⟩)
  · exact .inr (.inr ⟨hr, .inr hd, h⟩)
  · exact .inr (.inr ⟨hr, .inl hp, h⟩)

end Sys2Proof.Machine
end

