-- ==== Sys2Proof/Tests/Slice0.lean ====
section
/-! SUPPORT. The session's own tests. Expected values come from the spec: 95_test_vectors.md (named by their ids) and
30_encoding.md R119. The witnesses at the end show, for each statement with hypotheses, values that meet them. -/

-- The many small theorems, elaborated at once, would take more thread stacks than the check's memory limit allows.
set_option Elab.async false

namespace Sys2Proof.Tests

open Machine

/-! Well-formedness: an ill-formed term for each check, and the largest well-formed LEN. -/

theorem test_wellFormed_refuses_long_len : (Instr.stretch 65536).wellFormed = false := by decide

theorem test_wellFormed_admits_largest_len : (Instr.stretch 65535).wellFormed = true := by decide

theorem test_program_refuses_unknown_label : programWellFormed [plainLine (.bnz 0 1#32 7)] = false := by decide

theorem test_program_refuses_double_label :
    programWellFormed [⟨[1], .bnz 0 1#32 1⟩, ⟨[1], .bnz 0 1#32 1⟩] = false := by decide

theorem test_program_admits_wait : programWellFormed (waitLines 1 0) = true := by decide

/-! Decoding: words written out from 30_encoding.md R110, R113, bit 31 first, and vectors EN-1 to EN-14. -/

theorem test_decode_nop : decode 0b00000000000000000000000000000000#32 = .ok .nop := by decide

theorem test_decode_stretch : decode 0b00000000000111000000000000000001#32 = .ok (.stretch 28) := by decide

theorem test_decode_diffuse : decode 0b00000000000000000000000000000010#32 = .ok .diffuse := by decide

theorem test_decode_cipher : decode 0b00000000000000000000000000000011#32 = .ok .cipher := by decide

theorem test_decode_bytes_big_endian :
    decodeBytes [0x00#8, 0x08#8, 0x00#8, 0x01#8, 0xAA#8] = .ok (.stretch 8, [0xAA#8]) ∧
    decodeBytes [0x00#8, 0x08#8, 0x00#8] = .error .tooFewBytes := by decide

theorem test_decode_len_is_unsigned : decode 0xFFFF0001#32 = .ok (.stretch 65535) := by decide

theorem test_decode_illegal :
    decode 0x00000004#32 = .error .reservedOpcode ∧ decode 0x0000000F#32 = .error .reservedOpcode ∧
    decode 0x00000011#32 = .error .reservedBits ∧ decode 0x00088001#32 = .error .reservedBits ∧
    decode 0x00010000#32 = .error .lengthNotZero ∧ decode 0x80000003#32 = .error .lengthNotZero := by decide

theorem test_decodeTableWord : decodeTableWord 32 0x001C0001 = some (.stretch 28) ∧ decodeTableWord 32 4 = none := by
  decide

/-! The transforms. -/

/-- A byte array from the list of its bytes. -/
def bytes (n : Nat) (l : List Byte) : Vector Byte n := Vector.ofFn fun i => l.getD i 0#8

/-- The bytes `a, a+1, …`. -/
def rising (a n : Nat) : List Byte := (List.range n).map fun i => BitVec.ofNat 8 (a + i)

/-- "HELLO123". -/
def hello : List Byte := [0x48#8, 0x45#8, 0x4C#8, 0x4C#8, 0x4F#8, 0x31#8, 0x32#8, 0x33#8]

/-- 95_test_vectors.md ST-2. -/
def helloBlock : List Byte :=
  [0x48#8, 0x45#8, 0x4C#8, 0x4C#8, 0x4F#8, 0x31#8, 0x32#8, 0x33#8, 0xB7#8, 0x48#8, 0x45#8, 0x4C#8, 0x4C#8, 0x4F#8,
    0x31#8, 0x32#8, 0x33#8, 0x0F#8, 0x48#8, 0x45#8, 0x4C#8, 0x4C#8, 0x4F#8, 0x31#8, 0x32#8, 0x33#8, 0xDC#8, 0x48#8,
    0x45#8, 0x4C#8, 0x4C#8, 0x4F#8]

/-- 95_test_vectors.md ST-3: the zeros inside the declared length are trimmed. -/
theorem test_stretch_trims : (stretch (hello ++ [0#8, 0#8, 0#8, 0#8]) 12).toList = helloBlock := by decide +kernel

/-- ST-9: a full block, then a tail of one byte (first four positions). -/
theorem test_stretch_full_block_and_tail :
    (stretch (rising 1 33) 33).toList.take 4 = [0x20#8, 0x91#8, 0x22#8, 0x63#8] := by decide +kernel

/-- DF-7: at step 5 of round 0 the reference is the byte about to be replaced. -/
theorem test_diffuse_self_reference :
    (diffuse (zeroBytes 4) (bytes 32 [0x25#8, 0x89#8, 0x24#8, 0x26#8, 0x0B#8, 0x05#8, 0x94#8, 0xB7#8, 0xFC#8, 0xF0#8,
      0x4E#8, 0x33#8, 0xA7#8, 0x27#8, 0x58#8, 0x5B#8, 0x4C#8, 0x48#8, 0xA3#8, 0x9C#8, 0x36#8, 0x96#8, 0x40#8, 0x69#8,
      0x48#8, 0x10#8, 0xA1#8, 0x69#8, 0x5B#8, 0x99#8, 0xDD#8, 0x50#8])).toList =
    [0x4C#8, 0x7F#8, 0x98#8, 0x08#8, 0xC1#8, 0xCC#8, 0x7A#8, 0xA6#8, 0x55#8, 0x65#8, 0x02#8, 0xF2#8, 0x59#8, 0x90#8,
      0x12#8, 0x66#8] := by decide +kernel

/-- The stored hash of L1-2. -/
def storedL12 : List Byte :=
  [0x74#8, 0x57#8, 0x7F#8, 0x98#8, 0x07#8, 0x90#8, 0x06#8, 0xF3#8, 0x53#8, 0x9A#8, 0x8E#8, 0x94#8, 0xEB#8, 0xDE#8,
    0xE9#8, 0x19#8]

/-- The session key of L1-3. -/
def sessionKey : Key := bytes 8 [0x3F#8, 0xB1#8, 0x7E#8, 0x62#8, 0xFC#8, 0x11#8, 0xF8#8, 0x6F#8]

/-- CI-5: a plaintext that ends in 0x00 is trimmed. -/
theorem test_cipher_trims :
    (cipher sessionKey (bytes 16 (rising 1 15))).toList =
      [0x87#8, 0xDE#8, 0x25#8, 0xB1#8, 0x87#8, 0xA1#8, 0x8B#8, 0xF5#8] := by decide +kernel

/-! One step of each command. -/

/-- INBUF with the bytes written from its byte 0 on. -/
def inbufOf (l : List Byte) : Memory := l.zipIdx.map fun p => (inbufBase + p.2, p.1)

/-- A field of the next state, or `none` where the step stops. -/
def after {α : Type} (o : Host.Outcome State Fault Refusal) (f : State → α) : Option α :=
  match o with
  | .next t => some (f t)
  | .fault _ => none
  | .refused _ => none

/-- CT-2: a NOP completes with STATUS = 0x00000002. -/
theorem test_nop_status :
    after (step { State.reset with pending := some .nop }) status = some 0x00000002#32 := by decide +kernel

/-- ST-2: the engine's STRETCH of "HELLO123". -/
theorem test_stretch_block :
    after (exec (.stretch 8) { State.reset with inbuf := inbufOf hello }) (fun t => t.block.toList) = some helloBlock := by
  decide +kernel

/-- 93_implementation_defined.md U2: one byte of the input is unwritten. -/
theorem test_stretch_unwritten :
    after (exec (.stretch 9) { State.reset with inbuf := inbufOf hello }) status = none := by decide +kernel

/-- L1-1 (DF-2): the source's own stored hash. -/
theorem test_diffuse_stored_hash :
    after (exec .diffuse { State.reset with salt := objectSalt 0x05000026#32, block := bytes 32 helloBlock })
      (fun t => t.digest.toList) =
      some [0xA3#8, 0xC2#8, 0xA1#8, 0x66#8, 0x47#8, 0x6A#8, 0x77#8, 0x4D#8, 0x52#8, 0xED#8, 0xBA#8, 0x3D#8, 0xD1#8,
        0x97#8, 0x4B#8, 0x56#8] := by decide +kernel

/-- CI-1: the login hash of the source's third vector. -/
theorem test_cipher_login_hash :
    after (exec .cipher { State.reset with key := sessionKey, digest := bytes 16 storedL12 }) (fun t => t.out.toList) =
      some [0x97#8, 0x78#8, 0xD5#8, 0x36#8, 0x73#8, 0x1D#8, 0x29#8, 0x74#8] := by decide +kernel

/-- A command word set as the next to run is run by the very next step (DF-1, first byte of DIGEST). -/
theorem test_fetch_word_runs :
    after (step (State.reset.withFetchWord 32 2)) (fun t => byteAt t.digest 0) = some 0x5E#8 := by decide +kernel

/-- A rejected word set as the next to run is rejected by the very next step (CT-3). -/
theorem test_fetch_illegal_word :
    after (step (State.reset.withFetchWord 32 4)) status = some 0x00000016#32 := by decide +kernel

/-! The interface. -/

/-- A pending NOP, one step of the host away from its completion. -/
def busyState : State := { State.reset with pending := some .nop, delay := 1 }

/-- CT-9: a write to SALT while busy is ignored and raises E_BUSY. -/
theorem test_busy_write :
    after (hostWrite .w32 0x0010#16 0x11223344#32 busyState) (fun t => (status t, t.salt.toList)) =
      some (0x00000035#32, [0#8, 0#8, 0#8, 0#8]) := by decide +kernel

/-- CT-11: busy is checked before the word is decoded. -/
theorem test_busy_before_illegal :
    after (hostWrite .w32 0x0000#16 0x00000004#32 busyState) status = some 0x00000035#32 := by decide +kernel

/-- CT-8: DONE is cleared, ERR and ERRCODE stay. -/
theorem test_w1c_done :
    after (hostWrite .w32 0x0004#16 0x00000002#32 { State.reset with done := true, err := true, errcode := 1#4 })
      status = some 0x00000014#32 := by decide +kernel

/-- BU-7: SALT is big-endian. -/
theorem test_salt_bytes :
    after (hostWrite .w32 0x0010#16 0x05000026#32 State.reset) (fun t => t.salt.toList) =
      some [0x05#8, 0x00#8, 0x00#8, 0x26#8] := by decide +kernel

/-- What a read answers, or `none` where it stops. -/
def readValue (width : Width) (off : Offset) (s : State) : Option Word :=
  match hostRead width off s with
  | .next (v, _) => some v
  | .fault _ => none
  | .refused _ => none

/-- BU-1, BU-3, BU-6, BU-9, BU-10, BU-13, BU-14. -/
theorem test_reads :
    readValue .w32 0x0008#16 State.reset = some 0x4E570001#32 ∧
    readValue .w32 0x0100#16 State.reset = some 0x48934667#32 ∧
    readValue .w32 0x02FC#16 State.reset = some 0x0A0A080D#32 ∧
    readValue .w32 0x0000#16 State.reset = some 0#32 ∧
    readValue .w8 0x0300#16 State.reset = some 0#32 ∧
    readValue .w32 0x0002#16 State.reset = none ∧
    readValue .w8 0x8000#16 State.reset = none := by decide +kernel

/-- 45_adapters.md R228, step 4: the host writes back a word of BLOCK that it has read, XORed with a word of `acc`. -/
theorem test_host_writes_xor :
    after (hostOp (.wrXor .w32 0x0044#16 2 0x01020304#32) { State.reset with names := [(2, 0xF0F0F0F0#32)] })
      (fun t => (t.block.toList.drop 3).take 6) = some [0#8, 0xF1#8, 0xF2#8, 0xF3#8, 0xF4#8, 0#8] := by decide +kernel

/-- 30_encoding.md R116. -/
theorem test_assembler :
    assemble ['s', 't', 'r', 'e', 't', 'c', 'h', ' ', '#', '0', 'x', '1', 'c'] = some (.stretch 28) ∧
    disassemble 0x00000011#32 =
      ['.', 'w', 'o', 'r', 'd', ' ', '0', 'x', '0', '0', '0', '0', '0', '0', '1', '1'] := by decide +kernel

/-! Witnesses: the hypotheses of each statement, met together. -/

theorem test_witness_EncodedCommandDecodesBack : (Instr.stretch 65535).wellFormed = true := by decide

theorem test_witness_DecodedWordEncodesBack : decode 0xFFFF0001#32 = .ok (.stretch 65535) := by decide

theorem test_witness_IllegalWordsAreTheReservedOnes :
    busy State.reset = false ∧ (∃ e, decode 0x00010002#32 = .error e) ∧
      (0x00010002#32 : Word).toNat % 16 ≠ 1 ∧ (0x00010002#32 : Word).toNat / 65536 ≠ 0 :=
  ⟨by decide, ⟨.lengthNotZero, by decide⟩, by decide, by decide⟩

theorem test_witness_TrimmingStopsAtTheLastNonzeroByte :
    trimmedLength [0#8, 1#8, 0#8] 3 = 2 ∧ trimmedLength [0#8, 0#8] 2 = 0 := by decide

/-- Both branches at a boundary: position 31 with a tail of 31 bytes takes the Key Table, position 30 does not. -/
theorem test_witness_StretchClosedForm :
    trimmedLength (rising 1 31) 31 = 31 ∧ 31 % (31 + 1) = 31 ∧ 30 % (31 + 1) ≠ 31 := by decide +kernel

theorem test_witness_EmptyTailAddsTheKeyTable :
    trimmedLength (rising 1 32) 32 % 32 = 0 ∧ trimmedLength [0#8] 1 = 0 := by decide +kernel

theorem test_witness_StretchReadsOnlyTheDeclaredBytes :
    [1#8, 2#8].take 1 = [1#8, 3#8].take 1 ∧ [1#8, 2#8] ≠ [1#8, 3#8] := by decide

theorem test_witness_LongInputStretchesInTwoParts :
    33 ≤ (rising 1 33).length ∧ trimmedLength (rising 1 33) 33 = 33 ∧ busy State.reset = false := by decide +kernel

/-- DF-1 and DF-3: salt and block moved by the same pattern. -/
theorem test_witness_DiffuseSeesOnlyTheSaltedBlock :
    ∀ p, p < 32 → byteAt (zeroBytes 32) p ^^^ byteAt (zeroBytes 4) (p % 4) =
      byteAt (Vector.replicate 32 0xFF#8) p ^^^ byteAt (Vector.replicate 4 0xFF#8) (p % 4) := by decide +kernel

theorem test_witness_CipherFoldsInTwoStages :
    ∃ u : Nat → Byte, ∀ j, j < 16 → u j = byteAt (cipherTemp sessionKey (zeroBytes 16)) j ^^^
      byteAt (cipherTemp sessionKey (zeroBytes 16)) (31 - j) := ⟨_, fun _ _ => rfl⟩

/-- CI-3. -/
theorem test_witness_EqualKeyHalvesGiveZero :
    ∀ p, p < 4 → byteAt (bytes 8 [1#8, 2#8, 3#8, 4#8, 1#8, 2#8, 3#8, 4#8]) p =
      byteAt (bytes 8 [1#8, 2#8, 3#8, 4#8, 1#8, 2#8, 3#8, 4#8]) (4 + p) := by decide +kernel

/-- CI-8. -/
theorem test_witness_SwappedKeyHalvesGiveTheSame :
    ∀ p, p < 4 →
      byteAt (bytes 8 [0xFC#8, 0x11#8, 0xF8#8, 0x6F#8, 0x3F#8, 0xB1#8, 0x7E#8, 0x62#8]) p = byteAt sessionKey (4 + p) ∧
      byteAt (bytes 8 [0xFC#8, 0x11#8, 0xF8#8, 0x6F#8, 0x3F#8, 0xB1#8, 0x7E#8, 0x62#8]) (4 + p) =
        byteAt sessionKey p := by decide +kernel

/-- One zero byte at the end (CI-5), and sixteen (CI-2). -/
theorem test_witness_CipherExpandsTheTrimmedPlaintext :
    (∀ i, 16 - 1 ≤ i → i < 16 → byteAt (bytes 16 (rising 1 15)) i = 0#8) ∧
    (∀ i, 16 - 16 ≤ i → i < 16 → byteAt (zeroBytes 16) i = 0#8) := by
  refine ⟨fun i h1 h2 => ?_, fun i _ _ => byteAt_zeroBytes 16 i⟩
  have : i = 15 := by omega
  subst this
  decide +kernel

/-- INBUF full of rising bytes, for the smallest P_IN_BYTES. -/
def fullState : State := { State.reset with inbuf := inbufOf (rising 1 32) }

theorem test_witness_StretchCompletesWithTheStretchedBlock :
    (rising 1 32).length ≤ Config.inBytes ∧ inbufHolds (rising 1 32) fullState := by
  refine ⟨le_inBytes, ?_⟩
  have h : ∀ k, k < 32 → cellFind fullState.inbuf (inbufBase + k) = some ((rising 1 32).getD k 0#8) := by decide +kernel
  exact h

theorem test_witness_CompletionChangesOnlyItsResult :
    (after (exec .nop State.reset) busy).isSome = true ∧ (after (exec (.stretch 32) fullState) busy).isSome = true ∧
    (after (exec .diffuse State.reset) busy).isSome = true ∧ (after (exec .cipher State.reset) busy).isSome = true := by
  decide +kernel

/-- LEN above every P_IN_BYTES, and an unwritten byte at the boundary of what is written. -/
theorem test_witness_OnlyUnwrittenInputStopsACompletion :
    Config.inBytes < 32769 ∧ cellFind fullState.inbuf (inbufBase + 32) = none ∧ exec (.stretch 33) fullState =
      .fault .stretchUnwritten := by
  refine ⟨Nat.lt_succ_of_le inBytes_le, by decide +kernel, ?_⟩
  have h : inbufBytes 33 fullState = none := by decide +kernel
  simp [exec, execStretch, h]

/-- STRETCH #32 over two states that differ in everything but INBUF's first bytes. -/
theorem test_witness_ResultDependsOnOperandsAlone :
    operandsAgree (.stretch 32) fullState { fullState with block := Vector.replicate 32 0xFF#8, done := true } ∧
    (after (exec (.stretch 32) fullState) busy).isSome = true ∧
    (after (exec (.stretch 32) { fullState with block := Vector.replicate 32 0xFF#8, done := true }) busy).isSome =
      true := ⟨fun _ _ => rfl, by decide +kernel, by decide +kernel⟩

theorem test_witness_AcceptedCommandBecomesPending :
    (Instr.stretch 32).wellFormed = true ∧ tooLong (.stretch 32) = false ∧ busy State.reset = false := by decide +kernel

theorem test_witness_OverlongStretchIsRejected :
    busy State.reset = false ∧ (Config.inBytes < 65535 ∧ 65535 ≤ 65535) ∧ (Config.inBytes ≤ Config.inBytes) ∧
      Config.inBytes ≤ 65535 := by
  have := inBytes_le
  exact ⟨by decide, ⟨by omega, by omega⟩, le_refl _, by omega⟩

/-- The last byte of SALT, CMD's last byte, and a read-only offset. -/
theorem test_witness_WritesWhileBusyAreIgnored :
    busy busyState = true ∧ (regionOf 0x13).writable = true ∧ (regionOf 0x10).writable = true ∧ 0x10 % 4 = 0 ∧
      regionOf 0x3 = .cmd ∧ (regionOf 0x37).writable = false ∧ regionOf 0x37 ≠ .cmd ∧
      (after (hostWrite .w8 0x0037#16 1#32 busyState) busy).isSome = true := by decide +kernel

/-- An illegal word, a STRETCH above every P_IN_BYTES, and two writes while busy. -/
theorem test_witness_RejectionIsPrecise :
    (∃ t, hostWrite .w32 0x0000#16 4#32 State.reset = .next t) ∧ busy State.reset = false ∧
      (∃ g, decode 4#32 = .error g) ∧ (∃ i, decode 0x80010001#32 = .ok i ∧ tooLong i = true) ∧
      busy busyState = true ∧ regionOf 0x10 ≠ .status ∧
      (after (hostWrite .w32 0x0000#16 4#32 busyState) busy).isSome = true ∧
      (after (hostWrite .w32 0x0010#16 4#32 busyState) busy).isSome = true := by
  refine ⟨⟨_, rfl⟩, rfl, ⟨.reservedOpcode, by decide⟩, ⟨.stretch 32769, by decide, ?_⟩, rfl, by decide +kernel,
    by decide +kernel, by decide +kernel⟩
  simp only [tooLong, decide_eq_true_eq]
  exact Nat.lt_succ_of_le inBytes_le

/-- An error on record, with a host line ahead. -/
def errorState (op : HostOp) : State := { State.reset with err := true, errcode := 3#4, program := [plainLine op] }

/-- ERR 0 and ERR 1; a reset, a completion, a line that clears STATUS and one that does not, and no line at all. -/
theorem test_witness_FirstErrorIsKept :
    State.reset.err = false ∧ (errorState (.wr .w32 4#16 4#32)).err = true ∧
      resetDue { errorState (.wr .w32 4#16 4#32) with resetAfter := [0] } = true ∧
      (after (step { errorState (.wr .w32 4#16 4#32) with resetAfter := [0] }) busy).isSome = true ∧
      (after (step { errorState (.wr .w32 4#16 4#32) with pending := some .nop }) busy).isSome = true ∧
      clearsError State.reset (.wr .w32 4#16 4#32) = true ∧ clearsError State.reset (.wr .w8 7#16 4#32) = true ∧
      (after (step (errorState (.wr .w8 7#16 4#32))) busy).isSome = true ∧
      clearsError State.reset (.wr .w32 4#16 2#32) = false ∧ clearsError State.reset (.wr .w8 6#16 4#32) = false ∧
      (after (step (errorState (.wr .w8 6#16 4#32))) busy).isSome = true ∧ State.reset.program[0]? = none := by
  decide +kernel

/-- The first and the last byte of the ranges, INBUF's last certain byte, and a word of OUT. -/
theorem test_witness_WindowShowsEachRegisterAtItsOffset :
    busy State.reset = false ∧ (rising 1 32).length ≤ Config.inBytes ∧ inbufHolds (rising 1 32) fullState ∧
      readValue .w8 0x801F#16 fullState = some 0x20#32 ∧ 0x34 % 4 = 0 ∧
      readValue .w8 0x37#16 { State.reset with out := sessionKey } = some 0x6F#32 ∧
      readValue .w32 0x34#16 { State.reset with out := sessionKey } = some 0xFC11F86F#32 := by
  have h : ∀ k, k < 32 → cellFind fullState.inbuf (inbufBase + k) = some ((rising 1 32).getD k 0#8) := by decide +kernel
  exact ⟨rfl, le_inBytes, h, by decide +kernel, rfl, by decide +kernel, by decide +kernel⟩

/-- The first and the last word of the RW registers, and INBUF's first word. -/
theorem test_witness_StoredWordReadsBack :
    0x10 % 4 = 0 ∧ (regionOf 0x10).writable = true ∧ 0x5C % 4 = 0 ∧ (regionOf 0x5C).writable = true ∧
      (regionOf 0x8000).writable = true ∧ busy State.reset = false := by decide +kernel

theorem test_witness_StoredByteReadsBack :
    (regionOf 0x5F).writable = true ∧ (regionOf 0x801F).writable = true ∧ busy State.reset = false := by decide +kernel

theorem test_witness_ReservedOffsetsReadZeroAndIgnoreWrites :
    regionOf 0x14 = .reserved ∧ 0x14 % 4 = 0 ∧ regionOf 0x17 = .reserved ∧ regionOf 0x7FFF = .reserved := by
  decide +kernel

theorem test_witness_ReadOnlyRegistersIgnoreWrites :
    regionOf 0x8 = .id ∧ regionOf 0xF = .cap ∧ regionOf 0x30 = .out ∧ regionOf 0x11F = .ktab ∧ regionOf 0x2FF = .sbox ∧
      0x30 % 4 = 0 := by decide +kernel

theorem test_witness_OnlyUnwrittenInbufReadsFault :
    regionOf 0x8000 = .inbuf ∧ cellFind State.reset.inbuf 0x8000 = none ∧ 0x8000 % 4 = 0 := by decide +kernel

theorem test_witness_ReadsHaveNoSideEffect :
    readValue .w8 0x0010#16 busyState = some 0#32 ∧ (regionOf 0x10).hazardous = false ∧
      readValue .w8 0x0040#16 State.reset = some 0#32 ∧ busy State.reset = false := by decide +kernel

theorem test_witness_BusyResultReadsAreFree :
    busy busyState = true ∧ (regionOf 0x5F).hazardous = true ∧ (regionOf 0x5C).hazardous = true ∧ 0x5C % 4 = 0 ∧
      (regionOf 0x13).hazardous = false ∧ windowByte 0x13 busyState = some 0#8 ∧
      (regionOf 0x10).hazardous = false ∧ 0x10 % 4 = 0 ∧ windowByte 0x10 busyState = some 0#8 ∧
      windowByte 0x11 busyState = some 0#8 ∧ windowByte 0x12 busyState = some 0#8 := by decide +kernel

/-- A program that polls, with and without the masked bit set. -/
theorem test_witness_HostLinesReadAndJump :
    readValue .w32 0x0004#16 busyState = some 1#32 ∧
      hostName busyState 0 &&& 1#32 = 0#32 ∧
      hostName { busyState with names := [(0, 1#32)] } 0 &&& 1#32 ≠ 0#32 ∧
      labelLine 1 0 (waitLines 1 0) = some 0 ∧
      (after (hostWrite .w32 0x0040#16 (hostName State.reset 1 ^^^ 3#32) State.reset) busy).isSome = true := by
  decide +kernel

theorem test_witness_HostThatWaitsDisturbsNothing :
    busy busyState = true ∧ keepsWait busyState (.rd .w32 0x0004#16 0) = true ∧
      (after (hostOp (.rd .w32 0x0004#16 0) busyState) busy).isSome = true ∧
      keepsWait busyState (.wr .w32 0x0004#16 6#32) = true ∧
      (after (hostOp (.wr .w32 0x0004#16 6#32) busyState) busy).isSome = true := by decide +kernel

theorem test_witness_WellFormedProgramFindsItsLabels :
    programWellFormed (waitLines 1 0) = true ∧
      (after (step { busyState with program := waitLines 1 0 }) busy).isSome = true := by decide +kernel

theorem test_witness_StepRunsTheDecodedCommand :
    resetDue { State.reset with pending := some .cipher } = false ∧
      decode (BitVec.ofNat 32 (0x00200001 % 2 ^ 32)) = .ok (.stretch 32) ∧ tooLong (.stretch 32) = false := by
  decide +kernel

theorem test_witness_OtherwiseTheHostSteps :
    resetDue State.reset = false ∧ State.reset.pending = none ∧ resetDue busyState = false ∧ busyState.delay ≠ 0 ∧
      ({ busyState with program := waitLines 1 0 } : State).program[0]?.isSome = true := by decide

/-- A pending CIPHER under a reset that is due. -/
def resetState : State :=
  { State.reset with pending := some .cipher, done := true, resetAfter := [0], salt := sessionKey.take 4 }

theorem test_witness_ResetRestoresEveryRegister : resetDue resetState = true := by decide

theorem test_witness_ResetForgetsInbuf :
    resetDue { fullState with resetAfter := [0] } = true ∧
      after (step { fullState with resetAfter := [0] }) (fun t => t.inbuf) = some [] ∧ regionOf 0x801F = .inbuf := by
  decide +kernel

theorem test_witness_EveryStepKeepsTheInvariant :
    State.Inv busyState ∧ (after (step busyState) busy).isSome = true := by
  refine ⟨⟨rfl, fun _ => rfl, fun h => by simp [busyState, State.reset] at h, ?_, ?_, fun _ => rfl, rfl⟩, by
    decide +kernel⟩
  · intro i h; simp only [busyState, Option.some.injEq] at h; subst h; rfl
  · intro i h; simp only [busyState, Option.some.injEq] at h; subst h; rfl

theorem test_witness_OperandsAreProtectedWhileBusy :
    busy busyState = true ∧ resetDue busyState = false ∧ busyState.delay ≠ 0 ∧
      (after (step busyState) busy).isSome = true := by decide +kernel

/-- A DIFFUSE that waits one step, with a reset due only after it. -/
theorem test_witness_PendingCommandCompletesWithItsOperands :
    ∃ s u t t' : State, s.pending = some .diffuse ∧ (∀ k, s.resetAfter.head? = some k → s.delay < k) ∧
      runSteps s.delay s = .next u ∧ step u = .next t ∧ exec .diffuse s = .next t' := by
  refine ⟨{ busyState with pending := some .diffuse, resetAfter := [2] }, _, _, _, rfl, ?_, rfl, rfl, rfl⟩
  intro k h
  simp only [List.head?_cons, Option.some.injEq] at h
  subst h
  decide

theorem test_witness_CommandSequenceComputesTheLogin :
    hello.length ≤ Config.inBytes ∧
      inbufHolds hello { State.reset with
        inbuf := inbufOf hello, salt := objectSalt 0x05000026#32, key := sessionKey } := by
  refine ⟨le_trans (by decide) le_inBytes, ?_⟩
  have h : ∀ k, k < 8 → cellFind (inbufOf hello) (inbufBase + k) = some (hello.getD k 0#8) := by decide +kernel
  exact h

end Sys2Proof.Tests
end

section
/-! The statements of 00_scope.md: the capacity of INBUF. -/

namespace Sys2Proof.Machine

/-- P_IN_BYTES is a number of 32-byte blocks, whatever the free parameter is (00_scope.md R8). -/
theorem dvd_inBytes : 32 ∣ Config.inBytes :=
  Nat.dvd_mul_right 32 _

/-- Settles O47: the form of the capacity makes it a multiple of 32, and the window's laws give its two ends. -/
theorem capacityIsInRange : Obligations.CapacityIsInRange :=
  ⟨Nat.mod_eq_zero_of_dvd dvd_inBytes, le_inBytes, inBytes_le⟩

end Sys2Proof.Machine
end

section
/-! What a host transaction does at a register that no result hazard covers and that stores nothing: the facts of
20_memory.md R82 for CMD, STATUS, ID and CAP. -/

namespace Sys2Proof.Machine

/-! Where the four word registers lie (20_memory.md R71). -/

theorem regionOf_eq_cmd {o : Nat} (hi : o < 4) : regionOf o = .cmd :=
  regionOf_of_mem (e := ⟨0x0000, 4, .cmd⟩) (by simp [windowMap]) (Nat.zero_le o) (by simpa using hi)

theorem regionOf_eq_status {o : Nat} (lo : 4 ≤ o) (hi : o < 8) : regionOf o = .status :=
  regionOf_of_mem (e := ⟨0x0004, 4, .status⟩) (by simp [windowMap]) lo hi

theorem regionOf_eq_id {o : Nat} (lo : 8 ≤ o) (hi : o < 12) : regionOf o = .id :=
  regionOf_of_mem (e := ⟨0x0008, 4, .id⟩) (by simp [windowMap]) lo hi

theorem regionOf_eq_cap {o : Nat} (lo : 12 ≤ o) (hi : o < 16) : regionOf o = .cap :=
  regionOf_of_mem (e := ⟨0x000C, 4, .cap⟩) (by simp [windowMap]) lo hi

/-! Reads outside the result hazard (70_reset_and_hazards.md R285). -/

theorem resultHazard_eq_false {o : Nat} (h : (regionOf o).hazardous = false) (s : State) :
    resultHazard o s = false := by
  simp [resultHazard, h]

theorem readByte_eq_windowByte {o : Nat} (h : (regionOf o).hazardous = false) (k : Nat) (s : State) :
    readByte k o s = windowByte o s := by
  simp [readByte, resultHazard_eq_false h]

theorem drawn_eq_self {o : Nat} (h : (regionOf o).hazardous = false) (n : Nat) (s : State) : drawn o n s = s := by
  simp [drawn, resultHazard_eq_false h]

/-- A byte read outside the result hazard answers the window's byte, busy or not, and changes nothing. -/
theorem hostRead_byte_exact {off : Offset} {s : State} {b : Byte} (hz : (regionOf off.toNat).hazardous = false)
    (hb : windowByte off.toNat s = some b) : hostRead .w8 off s = .next (b.zeroExtend 32, s) := by
  simp [hostRead, readByte_eq_windowByte hz, drawn_eq_self hz, hb]

/-- An aligned word read outside the result hazard answers the word whose bytes the window shows, busy or not, and
changes nothing. -/
theorem hostRead_word_exact {off : Offset} {s : State} {w : Word} (ha : off.toNat % 4 = 0)
    (hz : (regionOf off.toNat).hazardous = false)
    (hw : ∀ j, j < 4 → windowByte (off.toNat + j) s = some (wordByte w j)) :
    hostRead .w32 off s = .next (w, s) := by
  have hread : ∀ j, j < 4 → ∀ k, readByte k (off.toNat + j) s = some (wordByte w j) := fun j hj k => by
    rw [readByte_eq_windowByte (by rwa [regionOf_aligned ha hj]), hw j hj]
  have h0 : readByte s.draws off.toNat s = some (wordByte w 0) := hread 0 (by decide) _
  simp [hostRead, ha, h0, hread, drawn_eq_self hz, wordOfBytes_wordByte]

/-! What the window shows of the four registers (20_memory.md R82). -/

theorem windowByte_cmd {o : Nat} (hi : o < 4) (s : State) : windowByte o s = some 0#8 := by
  simp [windowByte, regionOf_eq_cmd hi]

theorem windowByte_status {j : Nat} (hj : j < 4) (s : State) :
    windowByte (4 + j) s = some (wordByte (status s) j) := by
  simp [windowByte, regionOf_eq_status (o := 4 + j) (by omega) (by omega)]

theorem windowByte_id {j : Nat} (hj : j < 4) (s : State) :
    windowByte (8 + j) s = some (wordByte Config.idValue j) := by
  simp [windowByte, regionOf_eq_id (o := 8 + j) (by omega) (by omega)]

theorem windowByte_cap {j : Nat} (hj : j < 4) (s : State) :
    windowByte (12 + j) s = some (wordByte capValue j) := by
  simp [windowByte, regionOf_eq_cap (o := 12 + j) (by omega) (by omega)]

/-! Host writes. -/

theorem hostWrite_byte (off : Offset) (v : Word) (s : State) :
    hostWrite .w8 off v s = .next (windowWrite false off.toNat v s) := rfl

theorem hostWrite_word {off : Offset} (ha : off.toNat % 4 = 0) (v : Word) (s : State) :
    hostWrite .w32 off v s = .next (windowWrite true off.toNat v s) := if_pos ha

theorem windowWrite_cmd_word {o : Nat} (hr : regionOf o = .cmd) (v : Word) (s : State) :
    windowWrite true o v s = presentCommand v s := by
  simp [windowWrite, hr]

theorem windowWrite_cmd_byte {o : Nat} (hr : regionOf o = .cmd) (v : Word) (s : State) :
    windowWrite false o v s = s := by
  simp [windowWrite, hr]

/-- STATUS takes a word, and the byte that holds its bits [7:0] (10_state.md R45). -/
theorem windowWrite_status {whole : Bool} {o : Nat} (hr : regionOf o = .status) (v : Word) (s : State) :
    windowWrite whole o v s = if whole = true ∨ o = 7 then statusW1C v s else s := by
  simp [windowWrite, hr]

/-- What is neither CMD nor STATUS nor an RW data register ignores every write (20_memory.md R80). -/
theorem windowWrite_ignored {whole : Bool} {o : Nat} {r : Region} (hr : regionOf o = r) (hc : r ≠ .cmd)
    (hs : r ≠ .status) (hw : r.writable = false) (v : Word) (s : State) : windowWrite whole o v s = s := by
  subst hr
  unfold windowWrite
  split
  · contradiction
  · contradiction
  · simp [hw]

end Sys2Proof.Machine
end

section
/-! The invariant `State.Inv` under each named update of the state, and so under every step of the system
(10_state.md R36, R43, R44; 60_exceptions.md R241, R243). -/

namespace Sys2Proof.Machine

/-- The decoder answers only commands that a word can hold: LEN is a field of 16 bits (30_encoding.md R110). -/
theorem wellFormed_of_decode {w : Word} {i : Instr} (h : decode w = .ok i) : i.wellFormed = true := by
  rcases decode_cases w with ⟨_, _, hd⟩ | ⟨_, _, _, hd⟩ | ⟨_, _, _, hd⟩ | ⟨_, _, _, hd⟩ | ⟨_, _, hd⟩ <;>
    rw [hd] at h <;> cases h
  · have hlen : (lenField w).toNat < 2 ^ 16 := (lenField w).isLt
    simp only [Instr.wellFormed, decide_eq_true_eq]
    omega
  · rfl
  · rfl
  · rfl

/-- Every error that the engine records has one of the codes 1, 2 and 3 (60_exceptions.md R241). -/
theorem ErrorCode.code_cases (e : ErrorCode) : e.code = 1#4 ∨ e.code = 2#4 ∨ e.code = 3#4 := by
  cases e <;> simp [ErrorCode.code]

/-- The invariant looks at six fields only. -/
theorem inv_congr {s t : State} (h : s.Inv) (inbuf : t.inbuf = s.inbuf) (pending : t.pending = s.pending)
    (done : t.done = s.done) (err : t.err = s.err) (errcode : t.errcode = s.errcode) (names : t.names = s.names) :
    t.Inv where
  inbuf := by rw [inbuf]; exact h.inbuf
  noCode := by rw [err, errcode]; exact h.noCode
  someCode := by rw [err, errcode]; exact h.someCode
  fits := by rw [pending]; exact h.fits
  encodable := by rw [pending]; exact h.encodable
  notDone := by rw [pending, done]; exact h.notDone
  names := by rw [names]; exact h.names

/-! The engine's updates. -/

theorem inv_raiseError {s : State} (e : ErrorCode) (h : s.Inv) : (raiseError e s).Inv where
  inbuf := by simpa using h.inbuf
  noCode := by simp
  someCode _ := by
    cases he : s.err with
    | false => simpa [he] using e.code_cases
    | true => simpa [he] using h.someCode he
  fits := by simpa using h.fits
  encodable := by simpa using h.encodable
  notDone := by simpa using h.notDone
  names := by simpa using h.names

/-- Only the idle engine rejects (60_exceptions.md R246), so DONE may be set. -/
theorem inv_rejectCommand {s : State} (e : ErrorCode) (hb : busy s = false) (h : s.Inv) : (rejectCommand e s).Inv :=
  inv_raiseError e { h with notDone := fun hp => absurd hp (by simpa [busy] using hb) }

/-- Acceptance puts a command into PENDING that has a word and fits, and clears DONE (44_control.md R210). -/
theorem inv_acceptCommand {s : State} {i : Instr} (hwf : i.wellFormed = true) (hfit : tooLong i = false) (h : s.Inv) :
    (acceptCommand i s).Inv :=
  { h with
    fits := by simpa using hfit
    encodable := by simpa using hwf
    notDone := fun _ => rfl }

theorem inv_presentCommand {s : State} (w : Word) (h : s.Inv) : (presentCommand w s).Inv := by
  rcases presentCommand_cases w s with ⟨-, hp⟩ | ⟨hb, -, hp⟩ | ⟨hb, -, -, -, hp⟩ | ⟨-, i, hd, hfit, hp⟩ <;> rw [hp]
  · exact inv_raiseError _ h
  · exact inv_rejectCommand _ hb h
  · exact inv_rejectCommand _ hb h
  · exact inv_acceptCommand (wellFormed_of_decode hd) hfit h

/-- A write to STATUS clears ERR and ERRCODE together (10_state.md R45). -/
theorem inv_statusW1C {s : State} (v : Word) (h : s.Inv) : (statusW1C v s).Inv where
  inbuf := h.inbuf
  noCode := by
    rw [statusW1C_err, statusW1C_errcode]
    split
    · exact fun _ => rfl
    · exact h.noCode
  someCode := by
    rw [statusW1C_err, statusW1C_errcode]
    split
    · simp
    · exact h.someCode
  fits := h.fits
  encodable := h.encodable
  notDone hp := by simp [h.notDone hp]
  names := h.names

theorem inv_storeBytes {s : State} (o : Nat) (bs : List Byte) (h : s.Inv) : (storeBytes o bs s).Inv where
  inbuf := storeBytes_wf h.inbuf
  noCode := by simpa using h.noCode
  someCode := by simpa using h.someCode
  fits := by simpa using h.fits
  encodable := by simpa using h.encodable
  notDone := by simpa using h.notDone
  names := by simpa using h.names

/-- After a completion nothing is pending, so DONE may be 1 (44_control.md R211). -/
theorem inv_completed {s : State} (h : s.Inv) : (completed s).Inv :=
  { h with
    fits := by simp
    encodable := by simp
    notDone := by simp }

/-- A result register is no part of the invariant, so each command's completion step is `inv_completed`. -/
theorem inv_exec {i : Instr} {s t : State} (h : s.Inv) (he : exec i s = .next t) : t.Inv := by
  rcases exec_cases he with ⟨-, rfl⟩ | ⟨_, _, -, -, -, rfl⟩ | ⟨-, rfl⟩ | ⟨-, rfl⟩
  · exact inv_completed h
  all_goals exact inv_completed (inv_congr h rfl rfl rfl rfl rfl rfl)

/-- Nothing is pending, no error is on record, and INBUF and the host's names are empty (10_state.md R30). -/
theorem inv_reset : State.reset.Inv where
  inbuf := memory_wf_reset
  noCode _ := rfl
  someCode := by simp [State.reset]
  fits := by simp [State.reset]
  encodable := by simp [State.reset]
  notDone _ := rfl
  names := rfl

/-- A reset clears all that the engine's clauses speak of; the host's names stay (70_reset_and_hazards.md R280). -/
theorem inv_takeReset {s : State} (h : s.Inv) : (takeReset s).Inv :=
  { inv_reset with names := h.names }

/-! The host's transactions and lines. -/

theorem inv_windowWrite {s : State} (whole : Bool) (o : Nat) (v : Word) (h : s.Inv) :
    (windowWrite whole o v s).Inv := by
  rcases windowWrite_cases whole o v s with ⟨-, -, hw⟩ | ⟨-, hw⟩ | ⟨-, -, hw⟩ | ⟨-, -, hw⟩ | hw <;> rw [hw]
  · exact inv_presentCommand v h
  · exact inv_statusW1C v h
  · exact inv_raiseError _ h
  · exact inv_storeBytes o _ h
  · exact h

theorem inv_hostWrite {width : Width} {off : Offset} {v : Word} {s t : State} (h : s.Inv)
    (hw : hostWrite width off v s = .next t) : t.Inv := by
  rcases hostWrite_cases width off v s with ⟨-, he⟩ | ⟨-, -, he⟩ | ⟨-, -, he⟩ | ⟨-, he⟩ <;> rw [he] at hw <;> cases hw
  · exact inv_windowWrite _ _ _ h
  · exact inv_windowWrite _ _ _ h

theorem inv_drawn {s : State} (o n : Nat) (h : s.Inv) : (drawn o n s).Inv :=
  inv_congr h (by simp) (by simp) (by simp) (by simp) (by simp) (by simp)

theorem inv_nextLine {s : State} (h : s.Inv) : (nextLine s).Inv := inv_congr h rfl rfl rfl rfl rfl rfl

theorem inv_tick {s : State} (h : s.Inv) : (tick s).Inv := inv_congr h rfl rfl rfl rfl rfl rfl

/-- A value that the host reads into a register keeps its names in canonical form. -/
theorem inv_insertName {s : State} (name : Nat) (v : Word) (h : s.Inv) :
    ({ s with names := cellInsert name v s.names } : State).Inv :=
  { h with names := cellsRise_insert h.names (Nat.zero_le name) }

theorem inv_hostOp {op : HostOp} {s t : State} (h : s.Inv) (ho : hostOp op s = .next t) : t.Inv := by
  rcases hostOp_cases ho with ⟨_, _, _, u, -, hw, rfl⟩ | ⟨_, _, name, v, u, -, hr, rfl⟩ | ⟨_, _, _, -, k, rfl⟩
  · exact inv_nextLine (inv_hostWrite h hw)
  · obtain ⟨n, rfl⟩ := hostRead_next hr
    exact inv_nextLine (inv_insertName name v (inv_drawn _ n h))
  · exact inv_congr h rfl rfl rfl rfl rfl rfl

theorem inv_hostStep {s t : State} (h : s.Inv) (hs : hostStep s = .next t) : t.Inv := by
  rcases hostStep_cases hs with ⟨-, rfl⟩ | ⟨l, -, hl⟩
  · exact h
  · exact inv_hostOp h hl

/-- Settles O57: the invariant holds after each of the three turns, a reset, a completion step and the host's line. -/
theorem everyStepKeepsTheInvariant : Obligations.EveryStepKeepsTheInvariant := by
  intro s t h hs
  rcases step_cases hs with ⟨-, rfl⟩ | ⟨-, i, -, -, he⟩ | ⟨-, -, hh⟩
  · exact inv_takeReset h
  · exact inv_exec (inv_tick h) he
  · exact inv_hostStep (inv_tick h) hh

/-- Settles O56: `inv_reset`, which the reset turn of O57 rests on too. -/
theorem resetStateMeetsTheInvariant : Obligations.ResetStateMeetsTheInvariant := inv_reset

end Sys2Proof.Machine
end

section
/-! The statements of 10_state.md about CMD, STATUS, ID and CAP. -/

namespace Sys2Proof.Machine

/-! The bits of STATUS (10_state.md R41). -/

theorem status_errcode (s : State) : (status s).extractLsb' 4 4 = s.errcode := by
  apply BitVec.eq_of_getLsbD_eq
  intro i hi
  simp only [status, BitVec.getLsbD_extractLsb', BitVec.getLsbD_append]
  interval_cases i <;> simp

theorem status_high (s : State) : (status s).extractLsb' 8 24 = 0#24 := by
  apply BitVec.eq_of_getLsbD_eq
  intro i hi
  simp only [status, BitVec.getLsbD_extractLsb', BitVec.getLsbD_append]
  interval_cases i <;> simp

theorem status_low (s : State) :
    (status s).getLsbD 0 = s.pending.isSome ∧ (status s).getLsbD 1 = s.done ∧ (status s).getLsbD 2 = s.err ∧
      (status s).getLsbD 3 = false := by
  simp only [status, busy, BitVec.getLsbD_append]
  simp

/-- Settles O40: the read goes byte by byte through the window, and the word it answers is `status s`, whose bits are
laid out by concatenation. -/
theorem statusShowsItsFields : Obligations.StatusShowsItsFields := by
  intro s
  obtain ⟨hbusy, hdone, herr, hzero⟩ := status_low s
  have hread : hostRead .w32 0x0004#16 s = .next (status s, s) :=
    hostRead_word_exact rfl rfl fun _ hj => windowByte_status hj s
  exact ⟨hread, hbusy, hdone, herr, hzero, status_errcode s, status_high s⟩

/-- The write-one-to-clear bits as a formula. -/
theorem statusW1C_eq (v : Word) (s : State) :
    statusW1C v s = { s with
      done := s.done && !v.getLsbD 1, err := s.err && !v.getLsbD 2,
      errcode := if v.getLsbD 2 then 0#4 else s.errcode } := by
  unfold statusW1C
  cases v.getLsbD 1 <;> cases v.getLsbD 2 <;> simp

/-- Settles O41: of the writes to STATUS, the word and the byte at 0x0007 are `statusW1C`, the other bytes nothing. -/
theorem statusWriteClearsDoneAndErr : Obligations.StatusWriteClearsDoneAndErr := by
  intro s v
  have hword : hostWrite .w32 0x0004#16 v s = .next (statusW1C v s) := by
    rw [hostWrite_word rfl, windowWrite_status rfl, if_pos (.inl rfl)]
  have hbyte : hostWrite .w8 0x0007#16 v s = .next (statusW1C v s) := by
    rw [hostWrite_byte, windowWrite_status rfl, if_pos (.inr rfl)]
  refine ⟨by rw [hword, statusW1C_eq], by rw [hbyte, hword], fun off lo hi => ?_⟩
  rw [hostWrite_byte, windowWrite_status (regionOf_eq_status lo (by omega)), if_neg (by simp; omega)]

/-- No host write changes anything at the offsets of ID and CAP (10_state.md R39, R40). -/
theorem windowWrite_idCap {o : Nat} (lo : 8 ≤ o) (hi : o < 16) (whole : Bool) (v : Word) (s : State) :
    windowWrite whole o v s = s := by
  rcases Nat.lt_or_ge o 12 with h | h
  · exact windowWrite_ignored (regionOf_eq_id lo h) (by decide) (by decide) rfl v s
  · exact windowWrite_ignored (regionOf_eq_cap h hi) (by decide) (by decide) rfl v s

/-- Settles O39: the window shows a constant of `Config` in each of ID and CAP, and `windowWrite_idCap` covers their
offsets. -/
theorem idAndCapAreConstants : Obligations.IdAndCapAreConstants := by
  intro s v
  refine ⟨hostRead_word_exact rfl rfl fun _ hj => windowByte_id hj s,
    hostRead_word_exact rfl rfl fun _ hj => windowByte_cap hj s, ?_, ?_, fun off lo hi => ?_⟩
  · rw [hostWrite_word rfl, windowWrite_idCap (by decide) (by decide)]
  · rw [hostWrite_word rfl, windowWrite_idCap (by decide) (by decide)]
  · rw [hostWrite_byte, windowWrite_idCap lo hi]

/-- Settles O42: CMD shows zero bytes, a word write there is PresentCommand, and a byte write is dropped. -/
theorem cmdHasNoStorage : Obligations.CmdHasNoStorage := by
  intro s v
  refine ⟨hostRead_word_exact rfl rfl fun j hj => ?_, ?_, fun off hi => ⟨?_, ?_⟩⟩
  · rw [windowByte_cmd (by simpa using hj)]
    simp [wordByte]
  · rw [hostWrite_word rfl, windowWrite_cmd_word rfl]
  · exact hostRead_byte_exact (by rw [regionOf_eq_cmd hi]; rfl) (windowByte_cmd hi s)
  · rw [hostWrite_byte, windowWrite_cmd_byte (regionOf_eq_cmd hi)]

end Sys2Proof.Machine
end

section
/-! The window map by number, and the host's transactions on the idle engine: the facts of 20_memory.md R71 to R82 that
the statements below share. -/

namespace Sys2Proof.Machine

/-! Where the registers lie (20_memory.md R71). -/

/-- A register holds exactly its own range of offsets (20_memory.md R71). -/
theorem regionOf_eq_iff {o : Nat} {r : Region} (hr : r ≠ .reserved) : regionOf o = r ↔ r.Holds o := by
  refine ⟨regionOf_bounds, fun h => ?_⟩
  obtain ⟨e, he, rfl, lo, hi⟩ : ∃ e ∈ windowMap, e.region = r ∧ e.base ≤ o ∧ o < e.base + e.size := by
    cases r <;> simp [windowMap, Region.Holds] at hr h ⊢ <;> omega
  exact regionOf_of_mem he lo hi

/-- The RW data registers (20_memory.md R80). -/
theorem Region.writable_iff (r : Region) :
    r.writable = true ↔ r = .salt ∨ r = .key ∨ r = .digest ∨ r = .block ∨ r = .inbuf := by
  cases r <;> simp [Region.writable]

/-- The registers under the result hazard (70_reset_and_hazards.md R285). -/
theorem Region.hazardous_iff (r : Region) : r.hazardous = true ↔ r = .digest ∨ r = .out ∨ r = .block := by
  cases r <;> simp [Region.hazardous]

theorem writable_regionOf_iff (o : Nat) :
    (regionOf o).writable = true ↔
      (0x10 ≤ o ∧ o < 0x14) ∨ (0x18 ≤ o ∧ o < 0x30) ∨ (0x40 ≤ o ∧ o < 0x60) ∨
        (inbufBase ≤ o ∧ o < inbufBase + Config.inBytes) := by
  simp only [Region.writable_iff, regionOf_eq_iff, ne_eq, reduceCtorEq, not_false_eq_true, Region.Holds]
  omega

theorem hazardous_regionOf_iff (o : Nat) :
    (regionOf o).hazardous = true ↔ (0x20 ≤ o ∧ o < 0x38) ∨ (0x40 ≤ o ∧ o < 0x60) := by
  simp only [Region.hazardous_iff, regionOf_eq_iff, ne_eq, reduceCtorEq, not_false_eq_true, Region.Holds]
  omega

/-- The offsets of an aligned word's bytes do not wrap around the window. -/
theorem toNat_add_of_aligned {off : Offset} {j : Nat} (ha : off.toNat % 4 = 0) (hj : j < 4) :
    (off + BitVec.ofNat 16 j).toNat = off.toNat + j := by
  have := off.isLt
  simp only [BitVec.toNat_add, BitVec.toNat_ofNat]
  omega

/-! What the window shows of the byte arrays (20_memory.md R71, R85). -/

theorem regionOf_salt {k : Nat} (hk : k < 4) : regionOf (0x10 + k) = .salt :=
  (regionOf_eq_iff (by decide)).mpr (by simp only [Region.Holds]; omega)

theorem windowByte_salt {k : Nat} (hk : k < 4) (s : State) : windowByte (0x10 + k) s = some (byteAt s.salt k) := by
  simp [windowByte, regionOf_salt hk]

theorem windowByte_key {k : Nat} (hk : k < 8) (s : State) : windowByte (0x18 + k) s = some (byteAt s.key k) := by
  have hr : regionOf (0x18 + k) = .key := (regionOf_eq_iff (by decide)).mpr (by simp only [Region.Holds]; omega)
  simp [windowByte, hr]

theorem windowByte_digest {k : Nat} (hk : k < 16) (s : State) :
    windowByte (0x20 + k) s = some (byteAt s.digest k) := by
  have hr : regionOf (0x20 + k) = .digest := (regionOf_eq_iff (by decide)).mpr (by simp only [Region.Holds]; omega)
  simp [windowByte, hr]

theorem windowByte_out {k : Nat} (hk : k < 8) (s : State) : windowByte (0x30 + k) s = some (byteAt s.out k) := by
  have hr : regionOf (0x30 + k) = .out := (regionOf_eq_iff (by decide)).mpr (by simp only [Region.Holds]; omega)
  simp [windowByte, hr]

theorem windowByte_block {k : Nat} (hk : k < 32) (s : State) :
    windowByte (0x40 + k) s = some (byteAt s.block k) := by
  have hr : regionOf (0x40 + k) = .block := (regionOf_eq_iff (by decide)).mpr (by simp only [Region.Holds]; omega)
  simp [windowByte, hr]

theorem windowByte_inbuf {k : Nat} (hk : k < Config.inBytes) (s : State) :
    windowByte (inbufBase + k) s = cellFind s.inbuf (inbufBase + k) := by
  have hr : regionOf (inbufBase + k) = .inbuf := regionOf_eq_inbuf.mpr (by omega)
  simp [windowByte, hr]

theorem windowByte_reserved {o : Nat} (hr : regionOf o = .reserved) (s : State) : windowByte o s = some 0#8 := by
  simp [windowByte, hr]

/-! Reads (20_memory.md R79, R82). -/

/-- The idle engine has no result hazard (70_reset_and_hazards.md R285). -/
theorem resultHazard_idle {s : State} (hb : busy s = false) (o : Nat) : resultHazard o s = false := by
  simp [resultHazard, hb]

theorem readByte_idle {s : State} (hb : busy s = false) (k o : Nat) : readByte k o s = windowByte o s := by
  simp [readByte, resultHazard_idle hb]

theorem drawn_idle {s : State} (hb : busy s = false) (o n : Nat) : drawn o n s = s := by
  simp [drawn, resultHazard_idle hb]

/-- A read touches the count of free values only. -/
theorem drawn_eq (o n : Nat) (s : State) : drawn o n s = { s with draws := (drawn o n s).draws } := by
  unfold drawn
  split <;> rfl

/-- A byte read at an offset given by number. -/
theorem hostRead_byte_at {s : State} {o : Nat} {b : Byte} (hb : busy s = false) (ho : o < 65536)
    (hw : windowByte o s = some b) : hostRead .w8 (BitVec.ofNat 16 o) s = .next (b.zeroExtend 32, s) :=
  (hostRead_byte_idle hb).mpr ⟨b, by rwa [BitVec.toNat_ofNat, Nat.mod_eq_of_lt ho], rfl⟩

/-- An aligned word read is four byte reads, the first in bits [31:24] (20_memory.md R82). -/
theorem hostRead_word_of_readByte {off : Offset} {s : State} {w : Word} (ha : off.toNat % 4 = 0)
    (h : ∀ j, j < 4 → readByte (s.draws + j) (off.toNat + j) s = some (wordByte w j)) :
    hostRead .w32 off s = .next (w, drawn off.toNat 4 s) := by
  have h0 : readByte s.draws off.toNat s = some (wordByte w 0) := h 0 (by decide)
  simp [hostRead, ha, h0, h, wordOfBytes_wordByte]

theorem hostRead_word_idle {off : Offset} {s : State} {w : Word} (ha : off.toNat % 4 = 0) (hb : busy s = false)
    (hw : ∀ j, j < 4 → windowByte (off.toNat + j) s = some (wordByte w j)) :
    hostRead .w32 off s = .next (w, s) := by
  rw [hostRead_word_of_readByte ha fun j hj => by rw [readByte_idle hb, hw j hj], drawn_idle hb]

/-- All that an aligned word read can do: it answers when each of its four bytes does, and else faults (log 19). -/
theorem hostRead_word_cases {off : Offset} (ha : off.toNat % 4 = 0) (s : State) :
    ((∀ j, j < 4 → readByte (s.draws + j) (off.toNat + j) s ≠ none) ∧
      ∃ w, hostRead .w32 off s = .next (w, drawn off.toNat 4 s)) ∨
    ((∃ j, j < 4 ∧ readByte (s.draws + j) (off.toNat + j) s = none) ∧
      hostRead .w32 off s = .fault .inbufReadUnwritten) := by
  simp only [hostRead, if_pos ha]
  split
  next b0 b1 b2 b3 h0 h1 h2 h3 =>
    refine .inl ⟨fun j hj => ?_, _, rfl⟩
    interval_cases j <;> simp [*]
  next hmissing =>
    refine .inr ⟨?_, rfl⟩
    by_contra! hall
    obtain ⟨b0, h0⟩ := Option.ne_none_iff_exists'.mp (hall 0 (by decide))
    obtain ⟨b1, h1⟩ := Option.ne_none_iff_exists'.mp (hall 1 (by decide))
    obtain ⟨b2, h2⟩ := Option.ne_none_iff_exists'.mp (hall 2 (by decide))
    obtain ⟨b3, h3⟩ := Option.ne_none_iff_exists'.mp (hall 3 (by decide))
    exact hmissing b0 b1 b2 b3 h0 h1 h2 h3

/-! Stores (20_memory.md R75, R78). -/

/-- The offsets of a list of bytes are the first one's and the others'. -/
theorem writable_cons {o : Nat} {b : Byte} {bs : List Byte}
    (hw : ∀ i, i < (b :: bs).length → (regionOf (o + i)).writable = true) :
    (regionOf o).writable = true ∧ ∀ i, i < bs.length → (regionOf (o + 1 + i)).writable = true := by
  refine ⟨hw 0 (by simp), fun i hi => ?_⟩
  rw [Nat.add_right_comm]
  exact hw (i + 1) (by simpa using hi)

/-- A store leaves every byte of the window alone that it does not name (10_state.md R51). -/
theorem windowByte_storeBytes_outside {o p : Nat} {bs : List Byte} {s : State}
    (hw : ∀ i, i < bs.length → (regionOf (o + i)).writable = true) (hp : p < o ∨ o + bs.length ≤ p) :
    windowByte p (storeBytes o bs s) = windowByte p s := by
  induction bs generalizing o s with
  | nil => rfl
  | cons b bs ih =>
    obtain ⟨hfirst, hrest⟩ := writable_cons hw
    rw [List.length_cons] at hp
    rw [storeBytes, ih hrest (by omega), windowByte_storeByte b s hfirst, if_neg (by omega)]

/-- Stored bytes show in the window in their order (20_memory.md R75). -/
theorem windowByte_storeBytes_inside {o j : Nat} {bs : List Byte} {s : State}
    (hw : ∀ i, i < bs.length → (regionOf (o + i)).writable = true) (hj : j < bs.length) :
    windowByte (o + j) (storeBytes o bs s) = some bs[j] := by
  induction bs generalizing o s j with
  | nil => simp at hj
  | cons b bs ih =>
    obtain ⟨hfirst, hrest⟩ := writable_cons hw
    cases j with
    | zero =>
      rw [storeBytes, windowByte_storeBytes_outside hrest (by omega), windowByte_storeByte b s hfirst]
      exact if_pos rfl
    | succ j =>
      rw [← Nat.add_assoc, Nat.add_right_comm]
      exact ih hrest (by simpa using hj)

/-- What no store touches: all but the five RW data registers. -/
theorem storeBytes_leaves (o : Nat) (bs : List Byte) (s : State) :
    (storeBytes o bs s).pending = s.pending ∧ (storeBytes o bs s).done = s.done ∧
      (storeBytes o bs s).err = s.err ∧ (storeBytes o bs s).errcode = s.errcode ∧
      (storeBytes o bs s).out = s.out ∧ sameHost s (storeBytes o bs s) ∧ sameSchedule s (storeBytes o bs s) := by
  simp [sameHost, sameSchedule]

/-- The four bytes of a word stored at an RW data register lie in that register (20_memory.md R71). -/
theorem writable_word {o : Nat} (ha : o % 4 = 0) (hw : (regionOf o).writable = true) (v : Word) :
    ∀ i, i < (wordBytes v).length → (regionOf (o + i)).writable = true := fun i hi => by
  rwa [regionOf_aligned ha hi]

theorem windowByte_store_word {o j : Nat} (ha : o % 4 = 0) (hw : (regionOf o).writable = true) (v : Word) (s : State)
    (hj : j < 4) : windowByte (o + j) (storeBytes o (wordBytes v) s) = some (wordByte v j) := by
  rw [windowByte_storeBytes_inside (writable_word ha hw v) hj]
  interval_cases j <;> rfl

end Sys2Proof.Machine
end

section
/-! The statements of 20_memory.md about the window map, reads and writes. -/

namespace Sys2Proof.Machine

/-! The window map and the reads (20_memory.md R71, R73, R77, R79, R82, R90). -/

/-- A byte is zero-extended without loss. -/
theorem zeroExtend_byte_inj {a b : Byte} (h : a.zeroExtend 32 = b.zeroExtend 32) : a = b := by
  simpa using congrArg (BitVec.setWidth 8) h

/-- What a byte read of the idle engine answers is the window's byte. -/
theorem windowByte_of_hostRead {s : State} (hb : busy s = false) {off : Offset} {b : Byte}
    (h : hostRead .w8 off s = .next (b.zeroExtend 32, s)) : windowByte off.toNat s = some b := by
  obtain ⟨c, hc, he⟩ := (hostRead_byte_idle hb).mp h
  rw [hc, zeroExtend_byte_inj he]

/-- An aligned word of the idle engine reads as its four bytes, the first in bits [31:24] (20_memory.md R75). -/
theorem hostRead_word_of_bytes {s : State} (hb : busy s = false) {off : Offset} {b0 b1 b2 b3 : Byte}
    (ha : off.toNat % 4 = 0) (h0 : hostRead .w8 off s = .next (b0.zeroExtend 32, s))
    (h1 : hostRead .w8 (off + 1#16) s = .next (b1.zeroExtend 32, s))
    (h2 : hostRead .w8 (off + 2#16) s = .next (b2.zeroExtend 32, s))
    (h3 : hostRead .w8 (off + 3#16) s = .next (b3.zeroExtend 32, s)) :
    hostRead .w32 off s = .next (wordOfBytes b0 b1 b2 b3, s) := by
  have hbytes := wordBytes_wordOfBytes b0 b1 b2 b3
  simp only [wordBytes, List.cons.injEq, and_true] at hbytes
  obtain ⟨e0, e1, e2, e3⟩ := hbytes
  refine hostRead_word_idle ha hb fun j hj => ?_
  interval_cases j
  · rw [e0]
    exact windowByte_of_hostRead hb h0
  · rw [e1, ← toNat_add_of_aligned ha hj]
    exact windowByte_of_hostRead hb h1
  · rw [e2, ← toNat_add_of_aligned ha hj]
    exact windowByte_of_hostRead hb h2
  · rw [e3, ← toNat_add_of_aligned ha hj]
    exact windowByte_of_hostRead hb h3

/-- Settles O33: the map by number, from `Region.Holds`; then the reads, each from what the window shows at that
register. -/
theorem windowShowsEachRegisterAtItsOffset : Obligations.WindowShowsEachRegisterAtItsOffset := by
  refine ⟨fun o => ⟨regionOf_eq_iff (by decide), regionOf_eq_iff (by decide), regionOf_eq_reserved,
    writable_regionOf_iff o, hazardous_regionOf_iff o⟩, fun s hb => ⟨?_, ?_, ?_, ?_, ?_, ?_, ?_⟩⟩
  · exact fun k hk => hostRead_byte_at hb (by omega) (windowByte_salt hk s)
  · exact fun k hk => hostRead_byte_at hb (by omega) (windowByte_key hk s)
  · exact fun k hk => hostRead_byte_at hb (by omega) (windowByte_digest hk s)
  · exact fun k hk => hostRead_byte_at hb (by omega) (windowByte_out hk s)
  · exact fun k hk => hostRead_byte_at hb (by omega) (windowByte_block hk s)
  · intro bytes hlen hholds k hk
    have hin := inBytes_le
    exact hostRead_byte_at hb (by omega) ((windowByte_inbuf (by omega) s).trans (hholds k hk))
  · exact fun off b0 b1 b2 b3 ha h0 h1 h2 h3 => hostRead_word_of_bytes hb ha h0 h1 h2 h3

theorem hostWrite_refused_iff (width : Width) (off : Offset) (v : Word) (s : State) :
    (∃ r, hostWrite width off v s = .refused r) ↔
      (width = .w32 ∧ off.toNat % 4 ≠ 0) ∨ width = .w16 ∨ width = .w64 := by
  rcases hostWrite_cases width off v s with ⟨rfl, h⟩ | ⟨rfl, ha, h⟩ | ⟨rfl, ha, h⟩ | ⟨hw, h⟩ <;> rw [h]
  · simp
  · simp [ha]
  · simp [ha]
  · simp [hw]

theorem hostRead_refused_iff (width : Width) (off : Offset) (s : State) :
    (∃ r, hostRead width off s = .refused r) ↔
      (width = .w32 ∧ off.toNat % 4 ≠ 0) ∨ width = .w16 ∨ width = .w64 := by
  constructor
  · rintro ⟨r, hr⟩
    rcases hostRead_cases width off s with ⟨_, _, h⟩ | h | ⟨hw, ha, -⟩ | ⟨hw, -⟩
    · rw [h] at hr; cases hr
    · rw [h] at hr; cases hr
    · exact .inl ⟨hw, ha⟩
    · exact .inr hw
  · rintro (⟨rfl, ha⟩ | rfl | rfl)
    · exact ⟨_, if_neg ha⟩
    · exact ⟨_, rfl⟩
    · exact ⟨_, rfl⟩

theorem hostWrite_ne_fault (width : Width) (off : Offset) (v : Word) (s : State) (f : Fault) :
    hostWrite width off v s ≠ .fault f := by
  rcases hostWrite_cases width off v s with ⟨-, h⟩ | ⟨-, -, h⟩ | ⟨-, -, h⟩ | ⟨-, h⟩ <;> simp [h]

/-- Settles O43: of all that a host write and a host read can do, the two refusals are the ones of R73 and R77. -/
theorem onlyMisalignedAndOtherWidthsAreRefused : Obligations.OnlyMisalignedAndOtherWidthsAreRefused := fun s off v =>
  ⟨fun width => hostWrite_refused_iff width off v s, fun width => hostRead_refused_iff width off s,
    fun width f => hostWrite_ne_fault width off v s f⟩

theorem hostRead_byte_fault_iff (off : Offset) (s : State) :
    (∃ f, hostRead .w8 off s = .fault f) ↔ readByte s.draws off.toNat s = none := by
  simp only [hostRead]
  cases readByte s.draws off.toNat s <;> simp

theorem hostRead_word_fault_iff {off : Offset} (ha : off.toNat % 4 = 0) (s : State) :
    (∃ f, hostRead .w32 off s = .fault f) ↔
      ∃ j, j < 4 ∧ readByte (s.draws + j) (off.toNat + j) s = none := by
  rcases hostRead_word_cases ha s with ⟨hall, w, h⟩ | ⟨hmissing, h⟩ <;> rw [h]
  · simpa using hall
  · simpa using hmissing

/-- Settles O44: a byte is missing only where INBUF is unwritten, and an aligned word lies in one register. -/
theorem onlyUnwrittenInbufReadsFault : Obligations.OnlyUnwrittenInbufReadsFault := by
  refine fun s off => ⟨(hostRead_byte_fault_iff off s).trans readByte_eq_none, fun ha => ?_⟩
  rw [hostRead_word_fault_iff ha]
  constructor
  · rintro ⟨j, hj, hnone⟩
    obtain ⟨hr, hfind⟩ := readByte_eq_none.mp hnone
    exact ⟨by rwa [← regionOf_aligned ha hj], j, hj, hfind⟩
  · rintro ⟨hr, j, hj, hfind⟩
    exact ⟨j, hj, readByte_eq_none.mpr ⟨by rwa [regionOf_aligned ha hj], hfind⟩⟩

/-- Settles O45: a read that answers leaves `drawn`, which counts only under the result hazard. -/
theorem readsHaveNoSideEffect : Obligations.ReadsHaveNoSideEffect := by
  intro s t width off v h
  obtain ⟨n, rfl⟩ := hostRead_next h
  refine ⟨drawn_eq _ n s, ?_⟩
  rintro (hb | hz)
  · exact drawn_idle hb _ n
  · exact drawn_eq_self hz n s

/-! Stores to the RW data registers (20_memory.md R75, R76, R78; 10_state.md R51). -/

theorem hostWrite_word_store {s : State} {off : Offset} (ha : off.toNat % 4 = 0)
    (hw : (regionOf off.toNat).writable = true) (hb : busy s = false) (v : Word) :
    hostWrite .w32 off v s = .next (storeBytes off.toNat (wordBytes v) s) := by
  rw [hostWrite_word ha, windowWrite_store hw hb, if_pos rfl]

theorem hostWrite_byte_store {s : State} {off : Offset} (hw : (regionOf off.toNat).writable = true)
    (hb : busy s = false) (v : Word) :
    hostWrite .w8 off v s = .next (storeBytes off.toNat [v.truncate 8] s) := by
  rw [hostWrite_byte, windowWrite_store hw hb, if_neg (by decide)]

/-- Settles O34: the write is the store of the word's four bytes, which the window then shows in their order. -/
theorem storedWordReadsBack : Obligations.StoredWordReadsBack := by
  intro s off v ha hw hb
  have hbusy : busy (storeBytes off.toNat (wordBytes v) s) = false := by rwa [storeBytes_busy]
  refine ⟨_, hostWrite_word_store ha hw hb v,
    hostRead_word_idle ha hbusy fun j hj => windowByte_store_word ha hw v s hj, fun j hj => ?_,
    fun o ho => windowByte_storeBytes_outside (writable_word ha hw v) ho, storeBytes_leaves _ _ s⟩
  refine (hostRead_byte_idle hbusy).mpr ⟨wordByte v j, ?_, rfl⟩
  rw [toNat_add_of_aligned ha hj, windowByte_store_word ha hw v s hj]

/-- Settles O35: the write is the store of one byte, for which `windowByte_storeByte` is the whole window's answer. -/
theorem storedByteReadsBack : Obligations.StoredByteReadsBack := by
  intro s off v hw hb
  have hwindow := windowByte_storeByte (v.truncate 8) s hw
  have hbusy : busy (storeBytes off.toNat [v.truncate 8] s) = false := by rwa [storeBytes_busy]
  exact ⟨_, hostWrite_byte_store hw hb v,
    (hostRead_byte_idle hbusy).mpr ⟨v.truncate 8, (hwindow off.toNat).trans (if_pos rfl), rfl⟩,
    fun o ho => (hwindow o).trans (if_neg ho), storeBytes_leaves _ _ s⟩

theorem storeByte_salt {k : Nat} (hk : k < 4) (b : Byte) (s : State) :
    storeByte (0x10 + k) b s = { s with salt := setByte s.salt k b } := by
  simp [storeByte, regionOf_salt hk]

/-- Four bytes set in SALT are all of SALT, whatever it held. -/
theorem setByte_all_salt (salt : Salt) (b0 b1 b2 b3 : Byte) :
    setByte (setByte (setByte (setByte salt 0 b0) 1 b1) 2 b2) 3 b3 = #v[b0, b1, b2, b3] := by
  refine bytes_ext fun i hi => ?_
  interval_cases i <;> simp [byteAt_setByte] <;> rfl

/-- Settles O36: the four bytes are stored at 0x10 to 0x13, which are SALT's. -/
theorem saltHoldsTheIdentifierBigEndian : Obligations.SaltHoldsTheIdentifierBigEndian := by
  intro s id hb
  have hw : (regionOf 0x10).writable = true := (writable_regionOf_iff 0x10).mpr (by omega)
  have hstore : storeBytes 0x10 (wordBytes id) s =
      { s with salt := #v[wordByte id 0, wordByte id 1, wordByte id 2, wordByte id 3] } := by
    simp only [wordBytes, storeBytes]
    rw [storeByte_salt (k := 0) (by decide), storeByte_salt (k := 1) (by decide), storeByte_salt (k := 2) (by decide),
      storeByte_salt (k := 3) (by decide), setByte_all_salt]
  exact (hostWrite_word_store (off := 0x0010#16) rfl hw hb id).trans (congrArg _ hstore)

/-! Offsets that store nothing (20_memory.md R72, R80). -/

/-- A register that is neither CMD nor STATUS nor an RW data register ignores both widths of write. -/
theorem hostWrite_ignored {off : Offset} {r : Region} (hr : regionOf off.toNat = r) (hc : r ≠ .cmd) (hs : r ≠ .status)
    (hw : r.writable = false) (v : Word) (s : State) :
    hostWrite .w8 off v s = .next s ∧ (off.toNat % 4 = 0 → hostWrite .w32 off v s = .next s) :=
  ⟨by rw [hostWrite_byte, windowWrite_ignored hr hc hs hw],
    fun ha => by rw [hostWrite_word ha, windowWrite_ignored hr hc hs hw]⟩

/-- Settles O37: a reserved offset is under no result hazard, shows 0 and stores nothing, and so does its word. -/
theorem reservedOffsetsReadZeroAndIgnoreWrites : Obligations.ReservedOffsetsReadZeroAndIgnoreWrites := by
  intro s off v hr
  have hz : (regionOf off.toNat).hazardous = false := by rw [hr]; rfl
  obtain ⟨hbyte, hword⟩ := hostWrite_ignored hr (by decide) (by decide) rfl v s
  refine ⟨hostRead_byte_exact hz (windowByte_reserved hr s), hbyte, fun ha => ⟨?_, hword ha⟩⟩
  refine hostRead_word_exact ha hz fun j hj => ?_
  rw [windowByte_reserved (by rwa [regionOf_aligned ha hj])]
  simp [wordByte]

/-- Settles O38: each of the five registers is one that `hostWrite_ignored` speaks of. -/
theorem readOnlyRegistersIgnoreWrites : Obligations.ReadOnlyRegistersIgnoreWrites := by
  rintro s off v (hr | hr | hr | hr | hr) <;> exact hostWrite_ignored hr (by decide) (by decide) rfl v s

/-! The host's turn (20_memory.md R83). -/

theorem turn_eq_host {s : State} (hr : resetDue s = false) (h : s.pending = none ∨ s.delay ≠ 0) : turn s = .host := by
  rcases turn_cases s with ⟨hr', -⟩ | ⟨-, i, hp, hd, -⟩ | ⟨-, -, -, ht⟩ | ⟨-, -, ht⟩
  · simp [hr] at hr'
  · simp [hp, hd] at h
  · exact ht
  · exact ht

theorem hostStep_of_line {s : State} {l : HostLine} (h : s.program[s.line]? = some l) : hostStep s = hostOp l.op s := by
  simp [hostStep, h]

/-- Settles O53: it is the host's turn, and the passing of a step's time leaves its program and its line. -/
theorem otherwiseTheHostSteps : Obligations.OtherwiseTheHostSteps := by
  intro s hr h
  have hstep : step s = hostStep (tick s) := by rw [step, turn_eq_host hr h]
  exact ⟨hstep, fun l hl => hstep.trans (hostStep_of_line hl)⟩

end Sys2Proof.Machine
end

section
/-! The statements of 30_encoding.md about the command word: what the decoder answers for a word with given fields, and
which words lie in which row of R113. -/

namespace Sys2Proof

open Machine

/-! The fields by number (30_encoding.md R110). -/

theorem opField_toNat (w : Word) : (opField w).toNat = w.toNat % 16 := by
  simp [opField]

theorem rsvField_toNat (w : Word) : (rsvField w).toNat = w.toNat / 16 % 4096 := by
  simp [rsvField, Nat.shiftRight_eq_div_pow]

theorem lenField_toNat (w : Word) : (lenField w).toNat = w.toNat / 65536 := by
  have hw : w.toNat < 2 ^ 32 := w.isLt
  simp only [lenField, BitVec.extractLsb'_toNat, Nat.shiftRight_eq_div_pow]
  omega

theorem opField_eq_iff (w : Word) (op : BitVec 4) : opField w = op ↔ w.toNat % 16 = op.toNat := by
  rw [← opField_toNat, BitVec.toNat_inj]

theorem rsvField_eq_zero_iff (w : Word) : rsvField w = 0#12 ↔ w.toNat / 16 % 4096 = 0 := by
  rw [← rsvField_toNat, ← BitVec.toNat_inj]
  rfl

theorem lenField_eq_zero_iff (w : Word) : lenField w = 0#16 ↔ w.toNat / 65536 = 0 := by
  rw [← lenField_toNat, ← BitVec.toNat_inj]
  rfl

/-! The round trips (30_encoding.md R110, R114, R116). -/

/-- A word of OP 1 with no reserved bit is a STRETCH, whatever its LEN. -/
theorem decode_commandWord_stretch (len : BitVec 16) : decode (commandWord len 0x1#4) = .ok (.stretch len.toNat) := by
  simp [decode]

theorem decode_encode {i : Instr} (h : i.wellFormed = true) : decode (encode i) = .ok i := by
  cases i with
  | nop => decide
  | stretch len =>
    have hlen : len < 2 ^ 16 := Nat.lt_succ_of_le (of_decide_eq_true h)
    rw [encode, decode_commandWord_stretch, BitVec.toNat_ofNat, Nat.mod_eq_of_lt hlen]
  | diffuse => decide
  | cipher => decide

/-- A command's four bytes decode as their word does, and the bytes after them are left over. -/
theorem decodeBytes_wordBytes {w : Word} {i : Instr} (h : decode w = .ok i) (rest : List Byte) :
    decodeBytes (wordBytes w ++ rest) = .ok (i, rest) := by
  simp [wordBytes, decodeBytes, wordOfBytes_wordByte, h]

/-- Settles O1: the word decodes back by the encoder's four cases, and its bytes make up the same word again. -/
theorem encodedCommandDecodesBack : Obligations.EncodedCommandDecodesBack := fun _ rest h =>
  ⟨decode_encode h, decodeBytes_wordBytes (decode_encode h) rest⟩

/-- A word that decodes has no reserved bits, so its fields make it up: LEN and OP are the command's own. -/
theorem encode_of_decode {w : Word} {i : Instr} (h : decode w = .ok i) : encode i = w := by
  rcases decode_cases w with ⟨ho, hr, hd⟩ | ⟨ho, hr, hl, hd⟩ | ⟨ho, hr, hl, hd⟩ | ⟨ho, hr, hl, hd⟩ | ⟨-, -, hd⟩ <;>
    rw [hd] at h <;> cases h
  · rw [encode, BitVec.ofNat_toNat, BitVec.setWidth_eq, ← ho, commandWord_fields hr]
  · rw [encode, ← ho, ← hl, commandWord_fields hr]
  · rw [encode, ← ho, ← hl, commandWord_fields hr]
  · rw [encode, ← ho, ← hl, commandWord_fields hr]

/-- Settles O2: LEN is a field of 16 bits, and the fields of a word without reserved bits make it up. -/
theorem decodedWordEncodesBack : Obligations.DecodedWordEncodesBack := fun _ _ h =>
  ⟨wellFormed_of_decode h, encode_of_decode h⟩

/-! The illegal words (30_encoding.md R115). -/

/-- The three grounds of R115, by field. -/
theorem decode_error_iff_fields (w : Word) :
    (∃ e, decode w = .error e) ↔
      4 ≤ (opField w).toNat ∨ rsvField w ≠ 0#12 ∨ (opField w ≠ 0x1#4 ∧ lenField w ≠ 0#16) := by
  rcases decode_cases w with ⟨ho, hr, hd⟩ | ⟨ho, hr, hl, hd⟩ | ⟨ho, hr, hl, hd⟩ | ⟨ho, hr, hl, hd⟩ | ⟨h1, h023, hd⟩
  · simp [hd, ho, hr]
  · simp [hd, ho, hr, hl]
  · simp [hd, ho, hr, hl]
  · simp [hd, ho, hr, hl]
  · refine ⟨fun _ => ?_, fun _ => ⟨_, hd⟩⟩
    by_contra! ⟨hop, hr, hlen⟩
    have hne : opField w ≠ 0x1#4 := fun ho => h1 ⟨ho, hr⟩
    have hrest : opField w = 0x0#4 ∨ opField w = 0x2#4 ∨ opField w = 0x3#4 := by bv_omega
    exact h023 ⟨hrest, hr, hlen hne⟩

/-- The three grounds of R115, by number. -/
theorem decode_error_iff (w : Word) :
    (∃ e, decode w = .error e) ↔
      4 ≤ w.toNat % 16 ∨ w.toNat / 16 % 4096 ≠ 0 ∨ (w.toNat % 16 ≠ 1 ∧ w.toNat / 65536 ≠ 0) := by
  rw [decode_error_iff_fields, opField_toNat, Ne, rsvField_eq_zero_iff, Ne, opField_eq_iff, Ne, lenField_eq_zero_iff]
  rfl

/-- The idle engine rejects an illegal word that is written to CMD (60_exceptions.md R242, R246). -/
theorem hostWrite_cmd_illegal {w : Word} {s : State} (hb : busy s = false) (hw : ∃ e, decode w = .error e) :
    hostWrite .w32 0x0000#16 w s = .next (rejectCommand .illegal s) := by
  obtain ⟨e, he⟩ := hw
  rw [hostWrite_word rfl, windowWrite_cmd_word rfl]
  simp [presentCommand, hb, he]

/-- Settles O3: the decoder's error case by number, then the write to CMD as `rejectCommand_eq` spells it out. -/
theorem illegalWordsAreTheReservedOnes : Obligations.IllegalWordsAreTheReservedOnes := fun w =>
  ⟨decode_error_iff w, fun s hb hw => (hostWrite_cmd_illegal hb hw).trans (congrArg _ (rejectCommand_eq .illegal s))⟩

/-! The rows of the opcode map (30_encoding.md R113, R114). -/

/-- A row of one word: the mask keeps every bit. -/
theorem fits_fullMask {m : String} {p w : Word} : OpcodeRow.fits ⟨m, 0xFFFFFFFF#32, p⟩ w = true ↔ w = p := by
  have hmask : w &&& 0xFFFFFFFF#32 = w := BitVec.and_allOnes
  rw [OpcodeRow.fits, hmask, beq_iff_eq]

/-- The row of STRETCH: OP is 1, RSV is 0, and LEN is free. -/
theorem fits_stretch {w : Word} {len : Nat} :
    (opcodeRow (.stretch len)).fits w = true ↔ opField w = 0x1#4 ∧ rsvField w = 0#12 := by
  have hmask : (w &&& 0x0000FFFF#32).toNat = w.toNat % 65536 :=
    (BitVec.toNat_and ..).trans (Nat.and_two_pow_sub_one_eq_mod w.toNat 16)
  rw [OpcodeRow.fits, opcodeRow, beq_iff_eq, ← BitVec.toNat_inj, hmask, opField_eq_iff, rsvField_eq_zero_iff]
  simp only [BitVec.toNat_ofNat]
  omega

/-- Every command's own word lies in the command's own row. -/
theorem fits_encode {i : Instr} (h : i.wellFormed = true) : (opcodeRow i).fits (encode i) = true := by
  cases i with
  | nop => exact (Laws.EncodingRow.nop h).1
  | stretch len => exact (Laws.EncodingRow.stretch len h).1
  | diffuse => exact (Laws.EncodingRow.diffuse h).1
  | cipher => exact (Laws.EncodingRow.cipher h).1

/-- A word that fits a row decodes, to a command of that row. -/
theorem decode_of_fits {w : Word} {j : Instr} (h : (opcodeRow j).fits w = true) :
    ∃ i, decode w = .ok i ∧ opcodeRow i = opcodeRow j := by
  cases j with
  | nop => exact ⟨.nop, by rw [fits_fullMask.mp h]; decide, rfl⟩
  | stretch len => exact ⟨.stretch (lenField w).toNat, if_pos (fits_stretch.mp h), rfl⟩
  | diffuse => exact ⟨.diffuse, by rw [fits_fullMask.mp h]; decide, rfl⟩
  | cipher => exact ⟨.cipher, by rw [fits_fullMask.mp h]; decide, rfl⟩

/-- A word fits a row exactly when it decodes to a command of the row. -/
theorem fits_iff_decode {w : Word} {j : Instr} :
    (opcodeRow j).fits w = true ↔ ∃ i, decode w = .ok i ∧ opcodeRow i = opcodeRow j := by
  refine ⟨decode_of_fits, ?_⟩
  rintro ⟨i, hd, hrow⟩
  have hfits := fits_encode (wellFormed_of_decode hd)
  rwa [encode_of_decode hd, hrow] at hfits

/-- Every row of the map is some command's. -/
theorem exists_opcodeRow {r : OpcodeRow} (h : r ∈ opcodeRows) : ∃ j, opcodeRow j = r := by
  simp only [opcodeRows, List.mem_cons, List.not_mem_nil, or_false] at h
  rcases h with rfl | rfl | rfl | rfl <;> exact ⟨_, rfl⟩

/-- The rows of the map are distinct. -/
theorem filter_opcodeRows_eq (i : Instr) : opcodeRows.filter (fun r => r == opcodeRow i) = [opcodeRow i] := by
  cases i with
  | nop => decide
  | stretch len => rfl
  | diffuse => decide
  | cipher => decide

/-- The row that a word fits is that of the command it decodes to. -/
theorem filter_fits_of_decode {w : Word} {i : Instr} (h : decode w = .ok i) :
    opcodeRows.filter (fun r => r.fits w) = [opcodeRow i] := by
  rw [← filter_opcodeRows_eq i]
  refine List.filter_congr fun r hr => ?_
  obtain ⟨j, rfl⟩ := exists_opcodeRow hr
  rw [Bool.eq_iff_iff, fits_iff_decode, beq_iff_eq, h]
  simp [eq_comm]

/-- An illegal word fits no row. -/
theorem filter_fits_of_illegal {w : Word} {e : DecodeError} (h : decode w = .error e) :
    opcodeRows.filter (fun r => r.fits w) = [] := by
  refine List.filter_eq_nil_iff.mpr fun r hr hfits => ?_
  obtain ⟨j, rfl⟩ := exists_opcodeRow hr
  obtain ⟨i, hd, -⟩ := fits_iff_decode.mp hfits
  simp [hd] at h

/-- LEN is the high half of the word. -/
theorem len_of_decode {w : Word} {len : Nat} (h : decode w = .ok (.stretch len)) : len = w.toNat / 65536 := by
  have hlen : len ≤ 65535 := of_decide_eq_true (wellFormed_of_decode h)
  rw [← lenField_toNat, ← encode_of_decode h, encode, lenField_commandWord, BitVec.toNat_ofNat]
  omega

/-- Settles O4: the word decodes or does not, and `fits_iff_decode` says which rows it then fits. -/
theorem everyWordFitsOneRowOrIsIllegal : Obligations.EveryWordFitsOneRowOrIsIllegal := by
  intro w
  cases h : decode w with
  | ok i => exact .inl ⟨i, rfl, filter_fits_of_decode h, fun len hi => len_of_decode (hi ▸ h)⟩
  | error e => exact .inr ⟨⟨e, rfl⟩, filter_fits_of_illegal h⟩

/-- Settles O5: fixed words. -/
theorem specExampleWordsDecode : Obligations.SpecExampleWordsDecode := by
  unfold Obligations.SpecExampleWordsDecode
  decide

end Sys2Proof
end

section
/-! The statements of 30_encoding.md about the host agent: what its lines do, and that a well-formed program never
lacks a label. -/

namespace Sys2Proof.Machine

/-! What a line leaves of the program (log 7). -/

@[simp] theorem presentCommand_program (w : Word) (s : State) : (presentCommand w s).program = s.program := by
  rcases presentCommand_cases w s with ⟨-, h⟩ | ⟨-, -, h⟩ | ⟨-, -, -, -, h⟩ | ⟨-, i, -, -, h⟩ <;> simp [h]

@[simp] theorem windowWrite_program (whole : Bool) (o : Nat) (v : Word) (s : State) :
    (windowWrite whole o v s).program = s.program := by
  rcases windowWrite_cases whole o v s with ⟨-, -, h⟩ | ⟨-, h⟩ | ⟨-, -, h⟩ | ⟨-, -, h⟩ | h <;> simp [h]

theorem hostWrite_program {width : Width} {off : Offset} {v : Word} {s t : State}
    (h : hostWrite width off v s = .next t) : t.program = s.program := by
  rcases hostWrite_cases width off v s with ⟨-, hw⟩ | ⟨-, -, hw⟩ | ⟨-, -, hw⟩ | ⟨-, hw⟩ <;> rw [hw] at h <;> cases h
  · exact windowWrite_program _ _ _ s
  · exact windowWrite_program _ _ _ s

theorem hostOp_program {op : HostOp} {s t : State} (h : hostOp op s = .next t) : t.program = s.program := by
  rcases hostOp_cases h with ⟨_, _, _, u, -, hw, rfl⟩ | ⟨_, _, _, _, u, -, hr, rfl⟩ | ⟨_, _, _, -, k, rfl⟩
  · exact (nextLine_program u).trans (hostWrite_program hw)
  · obtain ⟨n, rfl⟩ := hostRead_next hr
    exact drawn_program _ n s
  · rfl

theorem exec_program {i : Instr} {s t : State} (h : exec i s = .next t) : t.program = s.program := by
  rcases exec_cases h with ⟨-, rfl⟩ | ⟨_, _, -, -, -, rfl⟩ | ⟨-, rfl⟩ | ⟨-, rfl⟩ <;> rw [completed_program]

/-- No turn, of the engine, the host or a reset, writes the host's program. -/
theorem step_program {s t : State} (h : step s = .next t) : t.program = s.program := by
  rcases step_cases h with ⟨-, rfl⟩ | ⟨-, i, -, -, he⟩ | ⟨-, -, hh⟩
  · rfl
  · exact (exec_program he).trans (tick_program s)
  · rcases hostStep_cases hh with ⟨-, rfl⟩ | ⟨l, -, hl⟩
    · rfl
    · exact (hostOp_program hl).trans (tick_program s)

/-! Which steps are refused for a label (log 15). -/

/-- The completion step gives every command a meaning. -/
theorem exec_ne_refused (i : Instr) (s : State) (r : Refusal) : exec i s ≠ .refused r := by
  cases i with
  | nop => simp [exec, execNop]
  | stretch len =>
    simp only [exec, execStretch]
    split_ifs
    · split <;> simp
    · simp
  | diffuse => simp [exec, execDiffuse]
  | cipher => simp [exec, execCipher]

theorem hostWrite_ne_unknownLabel (width : Width) (off : Offset) (v : Word) (s : State) :
    hostWrite width off v s ≠ .refused .unknownLabel := by
  rcases hostWrite_cases width off v s with ⟨-, h⟩ | ⟨-, -, h⟩ | ⟨-, -, h⟩ | ⟨-, h⟩ <;> simp [h]

theorem hostRead_ne_unknownLabel (width : Width) (off : Offset) (s : State) :
    hostRead width off s ≠ .refused .unknownLabel := by
  rcases hostRead_cases width off s with ⟨_, _, h⟩ | h | ⟨-, -, h⟩ | ⟨-, h⟩ <;> simp [h]

theorem hostStore_ne_unknownLabel (width : Width) (off : Offset) (v : Word) (s : State) :
    hostStore width off v s ≠ .refused .unknownLabel := by
  have h := hostWrite_ne_unknownLabel width off v s
  unfold hostStore
  split <;> simp_all

/-- BNZ falls through where no masked bit is set (30_encoding.md R117). -/
theorem hostBranch_clear {name : Nat} {mask : Word} {s : State} (h : hostName s name &&& mask = 0#32) (label : Nat) :
    hostBranch name mask label s = .next (nextLine s) := if_pos h

/-- BNZ jumps to the line of its label where a masked bit is set (30_encoding.md R117). -/
theorem hostBranch_set {name label k : Nat} {mask : Word} {s : State} (h : hostName s name &&& mask ≠ 0#32)
    (hk : labelLine label 0 s.program = some k) : hostBranch name mask label s = .next { s with line := k } := by
  simp [hostBranch, h, hk]

/-- A jump whose label names a line answers a next state. -/
theorem hostBranch_next {label k : Nat} (name : Nat) (mask : Word) {s : State}
    (hk : labelLine label 0 s.program = some k) : ∃ t, hostBranch name mask label s = .next t := by
  by_cases h : hostName s name &&& mask = 0#32
  · exact ⟨_, hostBranch_clear h label⟩
  · exact ⟨_, hostBranch_set h hk⟩

/-- A line that is well-formed in the program is not refused for a label. -/
theorem hostOp_ne_unknownLabel {op : HostOp} {s : State} (hwf : op.wellFormed s.program = true) :
    hostOp op s ≠ .refused .unknownLabel := by
  cases op with
  | wr width off v => exact hostStore_ne_unknownLabel width off v s
  | wrXor width off name v => exact hostStore_ne_unknownLabel width off _ s
  | rd width off name =>
    have h := hostRead_ne_unknownLabel width off s
    simp only [hostOp]
    split <;> simp_all
  | bnz name mask label =>
    obtain ⟨k, hk⟩ := Option.isSome_iff_exists.mp hwf
    obtain ⟨t, ht⟩ := hostBranch_next name mask hk
    simp [hostOp, ht]

/-- Every line of a well-formed program is well-formed in it. -/
theorem wellFormed_of_line {program : List HostLine} (h : programWellFormed program = true) {k : Nat} {l : HostLine}
    (hl : program[k]? = some l) : l.op.wellFormed program = true := by
  obtain ⟨-, hall⟩ := (Bool.and_eq_true_iff ..).mp h
  exact List.all_eq_true.mp hall l (List.mem_of_getElem? hl)

theorem hostStep_ne_unknownLabel {s : State} (h : programWellFormed s.program = true) :
    hostStep s ≠ .refused .unknownLabel := by
  cases hl : s.program[s.line]? with
  | none => simp [hostStep, hl]
  | some l => exact hostStep_of_line hl ▸ hostOp_ne_unknownLabel (wellFormed_of_line h hl)

theorem step_ne_unknownLabel {s : State} (h : programWellFormed s.program = true) :
    step s ≠ .refused .unknownLabel := by
  unfold step
  cases turn s with
  | reset => simp
  | engine i => exact exec_ne_refused i (tick s) _
  | host => exact hostStep_ne_unknownLabel h

/-- Settles O49: of the three turns only the host's can be refused for a label, and none writes the program. -/
theorem wellFormedProgramFindsItsLabels : Obligations.WellFormedProgramFindsItsLabels := fun _ h =>
  ⟨step_ne_unknownLabel h, fun _ => step_program⟩

/-! What a line does (30_encoding.md R117; 45_adapters.md R228). -/

/-- The state that a read line leaves: the read's own, the value in the named host register, and the next line. -/
def afterRead (name : Nat) (v : Word) (u : State) : State := nextLine { u with names := cellInsert name v u.names }

theorem hostOp_rd {width : Width} {off : Offset} {s u : State} {v : Word} (h : hostRead width off s = .next (v, u))
    (name : Nat) : hostOp (.rd width off name) s = .next (afterRead name v u) := by
  simp [hostOp, h, afterRead]

theorem hostName_afterRead (name : Nat) (v : Word) (u : State) (m : Nat) :
    hostName (afterRead name v u) m = if m = name then v else hostName u m := by
  simp only [hostName, afterRead, nextLine_names, cellFind_insert]
  split <;> rfl

/-- A read by itself changes no host register; the line's own write to the named one is `afterRead`'s. -/
theorem hostName_drawn (o n : Nat) (s : State) (m : Nat) : hostName (drawn o n s) m = hostName s m := by
  simp [hostName]

theorem status_drawn (o n : Nat) (s : State) : status (drawn o n s) = status s := by
  simp [status, busy]

theorem sameData_drawn (o n : Nat) (s : State) : sameData s (drawn o n s) := by
  simp [sameData]

theorem hostOp_wrXor {width : Width} {off : Offset} {name : Nat} {v : Word} {s t : State}
    (h : hostWrite width off (hostName s name ^^^ v) s = .next t) :
    hostOp (.wrXor width off name v) s = .next (nextLine t) := by
  simp [hostOp, hostStore, h]

/-- Settles O50: each clause is what its line's own lemma says. -/
theorem hostLinesReadAndJump : Obligations.HostLinesReadAndJump := by
  intro s width off name mask label
  refine ⟨fun v u hread => ?_, fun hclear => hostBranch_clear hclear label, fun hset _ hk => hostBranch_set hset hk,
    fun v t hw => hostOp_wrXor hw⟩
  obtain ⟨n, rfl⟩ := hostRead_next hread
  refine ⟨_, hostOp_rd hread name, (hostName_afterRead ..).trans (if_pos rfl), fun m hm => ?_, ?_, drawn_program ..,
    sameData_drawn off.toNat n s, drawn_pending .., status_drawn off.toNat n s⟩
  · rw [hostName_afterRead, if_neg hm, hostName_drawn]
  · exact congrArg (· + 1) (drawn_line off.toNat n s)

end Sys2Proof.Machine
end

section
/-! The statement of 30_encoding.md R116 about the text of a command: decimal digits are read back as the number that
they were printed from. -/

namespace Sys2Proof.Machine

theorem digitValue_hexDigit {v : Nat} (hv : v < 10) : digitValue 10 (hexDigit v) = some v := by
  interval_cases v <;> rfl

theorem hexDigit_ne_x {v : Nat} (hv : v < 10) : hexDigit v ≠ 'x' := by
  interval_cases v <;> decide

/-- What one more digit at the end does to the number read before it. -/
theorem readDigits_append_digit {m n v : Nat} {digits : List Char} (h : readDigits 10 m digits = some n) (hv : v < 10) :
    readDigits 10 m (digits ++ [hexDigit v]) = some (10 * n + v) := by
  induction digits generalizing m with
  | nil =>
    obtain rfl : m = n := by simpa [readDigits] using h
    simp [readDigits, digitValue_hexDigit hv]
  | cons c rest ih =>
    rw [List.cons_append]
    unfold readDigits at h ⊢
    split at h
    next d hd => simpa only [hd] using ih h
    next => cases h

/-- The decimal digits of a number that has at most `k` of them read back as the number. -/
theorem readDigits_decDigits {k n : Nat} (h : n < 10 ^ k) : readDigits 10 0 (decDigits k n) = some n := by
  induction k generalizing n with
  | zero =>
    obtain rfl : n = 0 := by simpa using h
    rfl
  | succ k ih =>
    have hlast : n % 10 < 10 := Nat.mod_lt n (by decide)
    have hread : readDigits 10 0 (if n / 10 = 0 then [] else decDigits k (n / 10)) = some (n / 10) := by
      split
      next hzero => rw [hzero]; rfl
      next => exact ih (by omega)
    rw [decDigits, readDigits_append_digit hread hlast, Nat.div_add_mod]

theorem ne_x_of_mem_decDigits {k n : Nat} {c : Char} (h : c ∈ decDigits k n) : c ≠ 'x' := by
  induction k generalizing n with
  | zero => simp [decDigits] at h
  | succ k ih =>
    rw [decDigits, List.mem_append, List.mem_singleton] at h
    rcases h with hc | rfl
    · split at hc
      · simp at hc
      · exact ih hc
    · exact hexDigit_ne_x (Nat.mod_lt n (by decide))

theorem decDigits_succ_ne_nil (k n : Nat) : decDigits (k + 1) n ≠ [] := by
  simp [decDigits]

/-- Digits without an `x` are no hexadecimal number, so they are read in decimal. -/
theorem readNumber_of_no_x {digits : List Char} (hne : digits ≠ []) (hx : ∀ c ∈ digits, c ≠ 'x') :
    readNumber digits = readDigits 10 0 digits := by
  unfold readNumber
  split
  · contradiction
  · simp at hx
  · simp at hx
  · rfl

theorem readNumber_decDigits {n : Nat} (h : n < 10 ^ 5) : readNumber (decDigits 5 n) = some n := by
  rw [readNumber_of_no_x (decDigits_succ_ne_nil 4 n) fun _ => ne_x_of_mem_decDigits, readDigits_decDigits h]

/-- A line that begins with STRETCH, a space and `#` is read as its number, within the range of R116. -/
theorem assemble_stretch {digits : List Char} {n : Nat} (h : readNumber digits = some n) (hn : n ≤ 65535) :
    assemble (['S', 'T', 'R', 'E', 'T', 'C', 'H', ' ', '#'] ++ digits) = some (.stretch n) := by
  have hupper : ['S', 'T', 'R', 'E', 'T', 'C', 'H', ' ', '#'].map upper =
      ['S', 'T', 'R', 'E', 'T', 'C', 'H', ' ', '#'] := rfl
  rw [assemble, List.map_append, hupper]
  simp [h, hn]

/-- Settles O51: the three plain mnemonics are fixed texts, and a STRETCH has at most five digits of LEN. -/
theorem assemblerReadsTheDisassembly : Obligations.AssemblerReadsTheDisassembly := by
  intro w i h
  rw [disassemble, h]
  cases i with
  | nop => rfl
  | stretch len =>
    have hlen : len ≤ 65535 := of_decide_eq_true (wellFormed_of_decode h)
    exact assemble_stretch (readNumber_decDigits (by omega)) hlen
  | diffuse => rfl
  | cipher => rfl

end Sys2Proof.Machine
end

section
/-! The statements of 40_tables.md: the balance of the Substitution Table, and what the host reads of the two tables. -/

namespace Sys2Proof.Machine

/-! The Substitution Table by its rows (40_tables.md R142, R143). -/

/-- The rows of R142's table, so that a count over the table is the sum of sixteen short ones. -/
def sboxRows : List (List Nibble) :=
  [sboxRow0, sboxRow1, sboxRow2, sboxRow3, sboxRow4, sboxRow5, sboxRow6, sboxRow7,
    sboxRow8, sboxRow9, sboxRowA, sboxRowB, sboxRowC, sboxRowD, sboxRowE, sboxRowF]

theorem sboxTable_eq_flatten : sboxTable = sboxRows.flatten := by
  simp [sboxTable, sboxRows]

theorem length_sboxTable : sboxTable.length = 256 := by
  rw [sboxTable_eq_flatten, List.length_flatten]
  rfl

theorem sum_count_sboxRows : ∀ v : Nibble, (sboxRows.map (List.count v)).sum = 16 := by
  decide

/-- Settles O6: a nibble's count in the table is the sum of its counts in the rows. -/
theorem substitutionTableIsBalanced : Obligations.SubstitutionTableIsBalanced := by
  refine ⟨length_sboxTable, fun v => ?_⟩
  rw [sboxTable_eq_flatten, List.count_flatten]
  exact sum_count_sboxRows v

/-! The tables in the window (20_memory.md R71; 40_tables.md R141, R144). -/

theorem regionOf_ktab {i : Nat} (hi : i < 32) : regionOf (0x100 + i) = .ktab :=
  (regionOf_eq_iff (by decide)).mpr (by simp only [Region.Holds]; omega)

theorem regionOf_sbox {i : Nat} (hi : i < 256) : regionOf (0x200 + i) = .sbox :=
  (regionOf_eq_iff (by decide)).mpr (by simp only [Region.Holds]; omega)

theorem windowByte_ktab {i : Nat} (hi : i < 32) (s : State) : windowByte (0x100 + i) s = some (kt i) := by
  simp [windowByte, regionOf_ktab hi]

theorem windowByte_sbox {i : Nat} (hi : i < 256) (s : State) :
    windowByte (0x200 + i) s = some ((sbox i).zeroExtend 8) := by
  simp [windowByte, regionOf_sbox hi]

/-- A byte read outside the result hazard at an offset given by number, busy or not. -/
theorem hostRead_byte_exact_at {o : Nat} {b : Byte} {s : State} (ho : o < 65536)
    (hz : (regionOf o).hazardous = false) (hw : windowByte o s = some b) :
    hostRead .w8 (BitVec.ofNat 16 o) s = .next (b.zeroExtend 32, s) := by
  have hoff : (BitVec.ofNat 16 o).toNat = o := by
    rw [BitVec.toNat_ofNat, Nat.mod_eq_of_lt ho]
  exact hostRead_byte_exact (by rwa [hoff]) (by rwa [hoff])

/-- Settles O7: neither table is under the result hazard, so a read answers what the window shows; an entry of SBOX
shows as a byte and the bus extends it to a word. -/
theorem tablesReadThroughTheWindow : Obligations.TablesReadThroughTheWindow := by
  refine fun s => ⟨fun i hi => ?_, fun i hi => ?_⟩
  · have hz : (regionOf (0x100 + i)).hazardous = false := by rw [regionOf_ktab hi]; rfl
    exact hostRead_byte_exact_at (by omega) hz (windowByte_ktab hi s)
  · have hz : (regionOf (0x200 + i)).hazardous = false := by rw [regionOf_sbox hi]; rfl
    have hextend : ((sbox i).zeroExtend 8).zeroExtend 32 = (sbox i).zeroExtend 32 :=
      BitVec.setWidth_setWidth (by decide)
    rw [hostRead_byte_exact_at (by omega) hz (windowByte_sbox hi s), hextend]

end Sys2Proof.Machine
end

section
/-! The statements of 41_stretcher.md: what trimming leaves, the stretched block byte by byte, on which input bytes it
depends, and the completion of STRETCH. -/

namespace Sys2Proof.Machine

/-! Trimming (41_stretcher.md R151). -/

theorem trimmedLength_le (inp : List Byte) (n : Nat) : trimmedLength inp n ≤ n := by
  induction n with
  | zero => exact Nat.le_refl 0
  | succ n ih =>
    unfold trimmedLength
    split
    · omega
    · exact Nat.le_refl (n + 1)

theorem getD_of_trimmedLength_le {inp : List Byte} {n i : Nat} (lo : trimmedLength inp n ≤ i) (hi : i < n) :
    inp.getD i 0#8 = 0#8 := by
  induction n with
  | zero => omega
  | succ n ih =>
    unfold trimmedLength at lo
    split at lo
    next hz =>
      rcases Nat.lt_succ_iff_lt_or_eq.mp hi with hlt | rfl
      · exact ih lo hlt
      · exact hz
    next => omega

theorem getD_trimmedLength_pred_ne {inp : List Byte} {n : Nat} (hpos : 0 < trimmedLength inp n) :
    inp.getD (trimmedLength inp n - 1) 0#8 ≠ 0#8 := by
  induction n with
  | zero => exact absurd hpos (Nat.lt_irrefl 0)
  | succ n ih =>
    unfold trimmedLength at hpos ⊢
    split
    next hz => exact ih (by rwa [if_pos hz] at hpos)
    next hnz => exact hnz

/-- Zero bytes at the end of the declared length may be left out of it. -/
theorem trimmedLength_eq_of_zeros {inp : List Byte} {m n : Nat} (hmn : m ≤ n)
    (hz : ∀ i, m ≤ i → i < n → inp.getD i 0#8 = 0#8) : trimmedLength inp n = trimmedLength inp m := by
  induction n, hmn using Nat.le_induction with
  | base => rfl
  | succ n hmn ih =>
    rw [trimmedLength, if_pos (hz n hmn (Nat.lt_succ_self n))]
    exact ih fun i lo hi => hz i lo (Nat.lt_succ_of_lt hi)

theorem trimmedLength_trimmedLength (inp : List Byte) (n : Nat) :
    trimmedLength inp (trimmedLength inp n) = trimmedLength inp n :=
  (trimmedLength_eq_of_zeros (trimmedLength_le inp n) fun _ => getD_of_trimmedLength_le).symm

theorem trimmedLength_congr {x y : List Byte} {n : Nat} (h : ∀ i, i < n → x.getD i 0#8 = y.getD i 0#8) :
    trimmedLength x n = trimmedLength y n := by
  induction n with
  | zero => rfl
  | succ n ih =>
    rw [trimmedLength, trimmedLength, h n (Nat.lt_succ_self n), ih fun i hi => h i (Nat.lt_succ_of_lt hi)]

/-! The full blocks (41_stretcher.md R152). -/

/-- The recursion of `foldBlocks` as one XOR over the blocks. -/
theorem byteAt_foldBlocks (inp : List Byte) (k : Nat) {s : Nat} (hs : s < 32) :
    byteAt (foldBlocks inp k) s =
      ((List.range k).map fun j => inp.getD (32 * j + s) 0#8).foldl (· ^^^ ·) 0#8 := by
  induction k with
  | zero => exact byteAt_zeroBytes 32 s
  | succ k ih =>
    simp only [foldBlocks, byteAt_ofFn, dif_pos hs, ih, List.range_succ, List.map_append, List.foldl_append,
      List.map_cons, List.map_nil, List.foldl_cons, List.foldl_nil]

theorem foldBlocks_congr {x y : List Byte} {k : Nat} (h : ∀ i, i < 32 * k → x.getD i 0#8 = y.getD i 0#8) :
    foldBlocks x k = foldBlocks y k := by
  induction k with
  | zero => rfl
  | succ k ih =>
    have hbyte : ∀ s : Fin 32, x.getD (32 * k + s) 0#8 = y.getD (32 * k + s) 0#8 := fun s => h _ (by omega)
    simp only [foldBlocks, ih fun i hi => h i (by omega), hbyte]

/-! The final pass (41_stretcher.md R153 to R155). -/

/-- What the final pass adds at position `s` (R155), for a tail of `t` bytes that begins at input byte `d`. -/
def tailByte (inp : List Byte) (d t s : Nat) : Byte :=
  if s % (t + 1) = t then kt s else inp.getD (d + s % (t + 1)) 0#8

theorem tailByte_congr {x y : List Byte} {d t : Nat} (h : ∀ i, i < t → x.getD (d + i) 0#8 = y.getD (d + i) 0#8)
    (s : Nat) : tailByte x d t s = tailByte y d t s := by
  have hcursor : s % (t + 1) < t + 1 := Nat.mod_lt s (Nat.succ_pos t)
  unfold tailByte
  split
  next => rfl
  next hne => exact h _ (by omega)

theorem tailByte_empty (inp : List Byte) (d s : Nat) : tailByte inp d 0 s = kt s :=
  if_pos (Nat.mod_one s)

/-- One position of the final pass, with the cursor where R155 says it stands: the position takes its byte, and the
cursor stands where R155 says for the next position. -/
theorem tailStep_of_cursor (inp : List Byte) (d t s : Nat) (w : Block) :
    tailStep inp d t (s % (t + 1), w) s =
      ((s + 1) % (t + 1), setByte w s (byteAt w s ^^^ tailByte inp d t s)) := by
  have hnext : (s + 1) % (t + 1) = (s % (t + 1) + 1) % (t + 1) := (Nat.mod_add_mod s (t + 1) 1).symm
  have hcursor : s % (t + 1) < t + 1 := Nat.mod_lt s (Nat.succ_pos t)
  unfold tailStep tailByte
  by_cases hend : s % (t + 1) = t
  · simp only [hnext, hend, if_true, Nat.mod_self]
  · simp only [hnext, if_neg hend, Nat.mod_eq_of_lt (show s % (t + 1) + 1 < t + 1 by omega)]

/-- After `k` positions the cursor stands at `k % (t + 1)`, and the positions below `k` have taken their bytes. -/
theorem foldl_tailStep (inp : List Byte) (d t : Nat) (out : Block) {k : Nat} (hk : k ≤ 32) :
    ∃ w : Block, (List.range k).foldl (tailStep inp d t) (0, out) = (k % (t + 1), w) ∧
      ∀ s, s < 32 → byteAt w s = if s < k then byteAt out s ^^^ tailByte inp d t s else byteAt out s := by
  induction k with
  | zero => exact ⟨out, by simp, fun s _ => rfl⟩
  | succ k ih =>
    obtain ⟨w, hfold, hw⟩ := ih (by omega)
    refine ⟨setByte w k (byteAt w k ^^^ tailByte inp d t k), ?_, fun s hs => ?_⟩
    · rw [List.range_succ, List.foldl_append, hfold]
      exact tailStep_of_cursor inp d t k w
    · rw [byteAt_setByte]
      by_cases hsk : k = s
      · subst hsk
        simp [hs, hw k hs]
      · have hlt : s < k + 1 ↔ s < k := by omega
        simp [hsk, hw s hs, hlt]

theorem byteAt_tailPass (inp : List Byte) (d t : Nat) (out : Block) {s : Nat} (hs : s < 32) :
    byteAt (tailPass inp d t out) s = byteAt out s ^^^ tailByte inp d t s := by
  obtain ⟨w, hfold, hw⟩ := foldl_tailStep inp d t out (Nat.le_refl 32)
  rw [tailPass, hfold, hw s hs, if_pos hs]

/-! The stretched block (41_stretcher.md R150, R154, R155, R159). -/

theorem byteAt_stretch (inp : List Byte) (declared : Nat) {s : Nat} (hs : s < 32) :
    byteAt (stretch inp declared) s =
      byteAt (foldBlocks inp (trimmedLength inp declared / 32)) s ^^^
        tailByte inp (32 * (trimmedLength inp declared / 32)) (trimmedLength inp declared % 32) s :=
  byteAt_tailPass inp _ _ _ hs

/-- The stretched block depends on the trimmed length and on the input bytes below it, and on nothing else. -/
theorem stretch_congr {x y : List Byte} {m n : Nat} (hlen : trimmedLength x m = trimmedLength y n)
    (h : ∀ i, i < trimmedLength x m → x.getD i 0#8 = y.getD i 0#8) : stretch x m = stretch y n := by
  refine bytes_ext fun s hs => ?_
  rw [byteAt_stretch x m hs, byteAt_stretch y n hs, ← hlen, foldBlocks_congr fun i hi => h i (by omega),
    tailByte_congr fun i hi => h _ (by omega)]

theorem stretch_congr_of_declared {x y : List Byte} {n : Nat} (h : ∀ i, i < n → x.getD i 0#8 = y.getD i 0#8) :
    stretch x n = stretch y n :=
  stretch_congr (trimmedLength_congr h) fun i hi => h i (Nat.lt_of_lt_of_le hi (trimmedLength_le x n))

theorem stretch_eq_of_zeros {inp : List Byte} {m n : Nat} (hmn : m ≤ n)
    (hz : ∀ i, m ≤ i → i < n → inp.getD i 0#8 = 0#8) : stretch inp n = stretch inp m :=
  stretch_congr (trimmedLength_eq_of_zeros hmn hz) fun _ _ => rfl

theorem getD_take {x : List Byte} {n i : Nat} (hi : i < n) : (x.take n).getD i 0#8 = x.getD i 0#8 := by
  rw [List.getD_eq_getElem?_getD, List.getD_eq_getElem?_getD, List.getElem?_take_of_lt hi]

/-- Settles O8: the trimmed length by recursion on the declared one; the input cut there has the same trimmed length and
the same bytes below it. -/
theorem trimmingStopsAtTheLastNonzeroByte : Obligations.TrimmingStopsAtTheLastNonzeroByte := by
  intro inp declared
  refine ⟨trimmedLength_le inp declared, fun _ => getD_of_trimmedLength_le, getD_trimmedLength_pred_ne,
    fun hz => trimmedLength_eq_of_zeros (Nat.zero_le declared) fun i _ => hz i, ?_⟩
  calc stretch inp declared
      = stretch inp (trimmedLength inp declared) :=
        stretch_eq_of_zeros (trimmedLength_le inp declared) fun _ => getD_of_trimmedLength_le
    _ = stretch (inp.take (trimmedLength inp declared)) (trimmedLength inp declared) :=
        stretch_congr_of_declared fun _ hi => (getD_take hi).symm

/-- Settles O9: the final pass by induction on the position (`foldl_tailStep`), over the blocks folded by induction on
their number (`byteAt_foldBlocks`). -/
theorem stretchClosedForm : Obligations.StretchClosedForm := by
  intro inp declared s hs
  rw [byteAt_stretch inp declared hs, byteAt_foldBlocks inp _ hs, tailByte]

/-- Settles O10: with an empty tail the closed form of O9 is the Key Table byte at every position. -/
theorem emptyTailAddsTheKeyTable : Obligations.EmptyTailAddsTheKeyTable := by
  intro inp declared
  have hempty : trimmedLength inp declared % 32 = 0 → ∀ s, s < 32 →
      byteAt (stretch inp declared) s = byteAt (foldBlocks inp (trimmedLength inp declared / 32)) s ^^^ kt s := by
    intro htail s hs
    rw [byteAt_stretch inp declared hs, htail, tailByte_empty]
  refine ⟨hempty, fun hnone => bytes_ext fun s hs => ?_⟩
  rw [hempty (by rw [hnone]) s hs, hnone, Nat.zero_div, foldBlocks, byteAt_zeroBytes, BitVec.zero_xor, kt]

/-- Settles O11: the appended zeros leave the declared length (`stretch_eq_of_zeros`), and then the input. -/
theorem stretchIgnoresAppendedZeros : Obligations.StretchIgnoresAppendedZeros := by
  intro x k
  have hzero : ∀ i, x.length ≤ i → i < x.length + k → (x ++ List.replicate k 0#8).getD i 0#8 = 0#8 := by
    intro i lo hi
    rw [List.getD_append_right x _ _ i lo, List.getD_replicate 0#8 (by omega)]
  calc stretch (x ++ List.replicate k 0#8) (x.length + k)
      = stretch (x ++ List.replicate k 0#8) x.length := stretch_eq_of_zeros (Nat.le_add_right _ k) hzero
    _ = stretch x x.length := stretch_congr_of_declared fun i hi => List.getD_append x _ _ i hi

/-- Settles O12: inputs cut to the same list have the same bytes below the declared length. -/
theorem stretchReadsOnlyTheDeclaredBytes : Obligations.StretchReadsOnlyTheDeclaredBytes := by
  intro x y declared h
  refine stretch_congr_of_declared fun i hi => ?_
  rw [← getD_take hi, h, getD_take hi]

/-! STRETCH (41_stretcher.md R156). -/

theorem inbufBytes_of_inbufHolds {bytes : List Byte} {s : State} (h : inbufHolds bytes s) :
    inbufBytes bytes.length s = some bytes :=
  cellRun_eq_some.mpr ⟨rfl, h⟩

/-- The completion of a STRETCH whose LEN bytes of INBUF are all written. -/
theorem exec_stretch_of_written {len : Nat} {bytes : List Byte} {s : State} (hlen : len ≤ Config.inBytes)
    (hbytes : inbufBytes len s = some bytes) :
    exec (.stretch len) s = .next (completed { s with block := stretch bytes len }) := by
  simp [exec, execStretch, hlen, hbytes]

/-- Settles O22: INBUF's first LEN bytes are the written ones, so the completion step takes its one branch without a
fault; `completed` clears PENDING and sets DONE. -/
theorem stretchCompletesWithTheStretchedBlock : Obligations.StretchCompletesWithTheStretchedBlock := by
  intro s bytes hlen hholds
  rw [exec_stretch_of_written hlen (inbufBytes_of_inbufHolds hholds), completed]

end Sys2Proof.Machine
end

section
/-! The statements of 42_diffusion.md: what one step of a round does, the two rounds as one run of 64 steps, on what the
hash depends, nibble folding, and the completion of DIFFUSE. -/

namespace Sys2Proof.Machine

/-! Salting (42_diffusion.md R171). -/

theorem byteAt_salted (salt : Salt) (block : Block) {p : Nat} (hp : p < 32) :
    byteAt (salted salt block) p = byteAt block p ^^^ byteAt salt (p % 4) := by
  rw [salted, byteAt_ofFn, dif_pos hp]

theorem salted_congr {s s' : Salt} {b b' : Block}
    (h : ∀ p, p < 32 → byteAt b p ^^^ byteAt s (p % 4) = byteAt b' p ^^^ byteAt s' (p % 4)) :
    salted s b = salted s' b' :=
  bytes_ext fun p hp => by rw [byteAt_salted s b hp, byteAt_salted s' b' hp, h p hp]

/-- The rounds start from the salted block and read neither salt nor block again. -/
theorem diffuse_congr {s s' : Salt} {b b' : Block} (h : salted s b = salted s' b') : diffuse s b = diffuse s' b' := by
  rw [diffuse, diffuse, workingBuffer, workingBuffer, h]

/-! The rounds (42_diffusion.md R172, R173). -/

theorem byteAt_roundStep_same (w : Block) (last : Byte) {i : Nat} (hi : i < 32) :
    byteAt (roundStep (w, last) i).1 i = newValue w last i := by
  rw [roundStep, byteAt_setByte, if_pos ⟨rfl, hi⟩]

theorem byteAt_roundStep_other (w : Block) (last : Byte) {i j : Nat} (h : j ≠ i) :
    byteAt (roundStep (w, last) i).1 j = byteAt w j :=
  byteAt_setByte_other w _ h.symm

theorem roundStep_last (w : Block) (last : Byte) {i : Nat} (hi : i < 32) :
    (roundStep (w, last) i).2 = last + byteAt (roundStep (w, last) i).1 i := by
  rw [byteAt_roundStep_same w last hi, roundStep]

/-- Steps numbered through from 0, step `k` at position `k mod 32`, make up one round for every 32 of them. -/
theorem foldl_roundStep_mod (n : Nat) (p : Block × Byte) :
    (List.range (32 * n)).foldl (fun q k => roundStep q (k % 32)) p = round^[n] p := by
  induction n with
  | zero => rfl
  | succ n ih =>
    rw [Nat.mul_succ, List.range_add, List.foldl_append, ih, List.foldl_map, Function.iterate_succ_apply', round]
    refine List.foldl_ext _ _ _ fun q i hi => ?_
    rw [Nat.mul_add_mod, Nat.mod_eq_of_lt (List.mem_range.mp hi)]

/-- Settles O14: the 64 steps are two rounds (`foldl_roundStep_mod`); a step writes one byte of the buffer. -/
theorem twoRoundsAreSixtyFourOrderedSteps : Obligations.TwoRoundsAreSixtyFourOrderedSteps := by
  refine ⟨fun salt block => ?_, fun w last i hi => ⟨?_, ?_, ?_⟩⟩
  · exact congrArg Prod.fst (foldl_roundStep_mod 2 (salted salt block, 0#8)).symm
  · exact byteAt_roundStep_same w last hi
  · exact fun j hj => byteAt_roundStep_other w last hj
  · exact roundStep_last w last hi

/-- Settles O16: equal XORs salt to the same working buffer (`salted_congr`), from which the hash goes on
(`diffuse_congr`). -/
theorem diffuseSeesOnlyTheSaltedBlock : Obligations.DiffuseSeesOnlyTheSaltedBlock := fun _ _ _ _ h =>
  diffuse_congr (salted_congr h)

/-! Nibble folding (42_diffusion.md R174). -/

/-- The OR of the two shifted nibbles is their concatenation: they share no bit. -/
theorem foldedByte_eq_append (w : Block) (k : Nat) :
    foldedByte w k = sbox (byteAt w (2 * k + 1)).toNat ++ sbox (byteAt w (2 * k)).toNat := by
  rw [foldedByte, BitVec.or_comm, BitVec.append_def, BitVec.shiftLeftZeroExtend_eq, BitVec.setWidth'_eq]

theorem byteAt_diffuse (salt : Salt) (block : Block) {k : Nat} (hk : k < 16) :
    byteAt (diffuse salt block) k = foldedByte (workingBuffer salt block) k := by
  rw [diffuse, byteAt_ofFn, dif_pos hk]

/-- Settles O15: a digest byte is the concatenation of its two nibbles (`foldedByte_eq_append`), cut apart again. -/
theorem digestBytesAreFoldedNibbles : Obligations.DigestBytesAreFoldedNibbles := by
  intro salt block k hk
  rw [byteAt_diffuse salt block hk, foldedByte_eq_append]
  exact ⟨BitVec.extractLsb'_append_eq_right, BitVec.extractLsb'_append_eq_left⟩

/-! DIFFUSE (42_diffusion.md R175). -/

theorem exec_diffuse (s : State) :
    exec .diffuse s = .next (completed { s with digest := diffuse s.salt s.block }) := by
  rw [exec, execDiffuse]

/-- Settles O23: the completion step writes DIGEST and ends as every command does (44_control.md R211). -/
theorem diffuseCompletesWithTheDigest : Obligations.DiffuseCompletesWithTheDigest := by
  intro s
  rw [exec_diffuse, completed]

end Sys2Proof.Machine
end

section
/-! The statements of 43_cipher.md: the expansion of the plaintext, the two digests of `temp`, the fold of them, and the
completion of CIPHER. -/

namespace Sys2Proof.Machine

/-! The expansion (43_cipher.md R191). -/

/-- R191: a plaintext that ends in zero bytes is stretched as the bytes before them. -/
theorem expand_eq_stretch_take {pt : Digest} {n : Nat} (hn : n ≤ 16)
    (hz : ∀ i, n ≤ i → i < 16 → byteAt pt i = 0#8) : expand pt = stretch (pt.toList.take n) n := by
  have hlist : ∀ i, n ≤ i → i < 16 → pt.toList.getD i 0#8 = 0#8 := fun i lo hi => by
    rw [byteAt_toList, hz i lo hi]
  calc expand pt
      = stretch pt.toList n := stretch_eq_of_zeros hn hlist
    _ = stretch (pt.toList.take n) n := stretch_congr_of_declared fun _ hi => (getD_take hi).symm

theorem stretch_zero (inp : List Byte) : stretch inp 0 = ktab :=
  (emptyTailAddsTheKeyTable inp 0).2 rfl

/-! The two digests (43_cipher.md R192). -/

theorem byteAt_keyHalf (key : Key) (j : Nat) {p : Nat} (hp : p < 4) :
    byteAt (keyHalf key j) p = byteAt key (4 * j + p) := by
  rw [keyHalf, byteAt_ofFn, dif_pos hp]

theorem keyHalf_eq {key key' : Key} {j j' : Nat}
    (h : ∀ p, p < 4 → byteAt key (4 * j + p) = byteAt key' (4 * j' + p)) : keyHalf key j = keyHalf key' j' :=
  bytes_ext fun p hp => by rw [byteAt_keyHalf key j hp, byteAt_keyHalf key' j' hp, h p hp]

/-- The digest of the expanded plaintext under key half `j`. -/
def halfDigest (key : Key) (pt : Digest) (j : Nat) : Digest := diffuse (keyHalf key j) (expand pt)

theorem halfDigest_congr {key key' : Key} {j j' : Nat} (h : keyHalf key j = keyHalf key' j') (pt : Digest) :
    halfDigest key pt j = halfDigest key' pt j' := by
  rw [halfDigest, halfDigest, h]

theorem byteAt_append {m n : Nat} (v : Vector Byte m) (w : Vector Byte n) (i : Nat) :
    byteAt (v ++ w) i = if i < m then byteAt v i else byteAt w (i - m) := by
  unfold byteAt
  rw [Vector.getElem?_append]
  split <;> rfl

theorem byteAt_cipherTemp (key : Key) (pt : Digest) (i : Nat) :
    byteAt (cipherTemp key pt) i =
      if i < 16 then byteAt (halfDigest key pt 0) i else byteAt (halfDigest key pt 1) (i - 16) :=
  byteAt_append (halfDigest key pt 0) (halfDigest key pt 1) i

theorem byteAt_cipherTemp_low (key : Key) (pt : Digest) {i : Nat} (hi : i < 16) :
    byteAt (cipherTemp key pt) i = byteAt (halfDigest key pt 0) i := by
  rw [byteAt_cipherTemp, if_pos hi]

theorem byteAt_cipherTemp_high (key : Key) (pt : Digest) (i : Nat) :
    byteAt (cipherTemp key pt) (16 + i) = byteAt (halfDigest key pt 1) i := by
  rw [byteAt_cipherTemp, if_neg (by omega), Nat.add_sub_cancel_left]

/-- Settles O20: the zeros at the end leave the plaintext (`expand_eq_stretch_take`), all of it when there are sixteen;
`temp` is two digests end to end. -/
theorem cipherExpandsTheTrimmedPlaintext : Obligations.CipherExpandsTheTrimmedPlaintext := by
  intro key pt k _ hz
  have htrim : expand pt = stretch (pt.toList.take (16 - k)) (16 - k) :=
    expand_eq_stretch_take (Nat.sub_le 16 k) hz
  refine ⟨htrim, fun hall => ?_, fun j hj => ⟨?_, ?_⟩⟩
  · rw [htrim, hall, stretch_zero]
  · exact byteAt_cipherTemp_low key pt hj
  · exact byteAt_cipherTemp_high key pt j

/-! The fold (43_cipher.md R193, R194, R196). -/

theorem byteAt_cipher (key : Key) (pt : Digest) {i : Nat} (hi : i < 8) :
    byteAt (cipher key pt) i = cipherFold (cipherTemp key pt) i := by
  rw [cipher, byteAt_ofFn, dif_pos hi]

/-- R193: of the four terms two lie in each digest, at the same two places. -/
theorem byteAt_cipher_eq_halfDigests (key : Key) (pt : Digest) {i : Nat} (hi : i < 8) :
    byteAt (cipher key pt) i =
      (byteAt (halfDigest key pt 0) i ^^^ byteAt (halfDigest key pt 1) i) ^^^
        (byteAt (halfDigest key pt 0) (15 - i) ^^^ byteAt (halfDigest key pt 1) (15 - i)) := by
  have hmirror : 31 - i = 16 + (15 - i) := by omega
  rw [byteAt_cipher key pt hi, cipherFold, hmirror, byteAt_cipherTemp_high, byteAt_cipherTemp_high,
    byteAt_cipherTemp_low key pt (by omega), byteAt_cipherTemp_low key pt (by omega)]
  ac_rfl

/-- Settles O18: the two digests are equal, so their XOR is zero at both places. -/
theorem equalKeyHalvesGiveZero : Obligations.EqualKeyHalvesGiveZero := by
  intro key pt hkey
  have hhalf : keyHalf key 0 = keyHalf key 1 := keyHalf_eq fun p hp => by
    simpa using hkey p hp
  have hdigest : halfDigest key pt 0 = halfDigest key pt 1 := halfDigest_congr hhalf pt
  refine bytes_ext fun i hi => ?_
  rw [byteAt_cipher_eq_halfDigests key pt hi, hdigest, BitVec.xor_self, BitVec.xor_self, BitVec.xor_self,
    byteAt_zeroBytes]

/-- Settles O19: the two digests change places, and their XOR is the same. -/
theorem swappedKeyHalvesGiveTheSame : Obligations.SwappedKeyHalvesGiveTheSame := by
  intro key key' pt hswap
  have hlow : keyHalf key' 0 = keyHalf key 1 := keyHalf_eq fun p hp => by
    simpa using (hswap p hp).1
  have hhigh : keyHalf key' 1 = keyHalf key 0 := keyHalf_eq fun p hp => by
    simpa using (hswap p hp).2
  refine bytes_ext fun i hi => ?_
  rw [byteAt_cipher_eq_halfDigests key' pt hi, byteAt_cipher_eq_halfDigests key pt hi, halfDigest_congr hlow pt,
    halfDigest_congr hhigh pt, BitVec.xor_comm (byteAt (halfDigest key pt 1) i),
    BitVec.xor_comm (byteAt (halfDigest key pt 1) (15 - i))]

/-- Settles O17: the second stage's index `31 - (15 - i)` is the fold's `16 + i`. -/
theorem cipherFoldsInTwoStages : Obligations.CipherFoldsInTwoStages := by
  intro key pt u hu i hi
  have hmirror : 31 - (15 - i) = 16 + i := by omega
  rw [byteAt_cipher key pt hi, cipherFold, hu i (by omega), hu (15 - i) (by omega), hmirror]
  ac_rfl

/-! CIPHER (43_cipher.md R195). -/

theorem exec_cipher (s : State) :
    exec .cipher s = .next (completed { s with out := cipher s.key s.digest }) := by
  rw [exec, execCipher]

/-- Settles O24: the completion step writes OUT and ends as every command does (44_control.md R211). -/
theorem cipherCompletesWithTheLoginHash : Obligations.CipherCompletesWithTheLoginHash := by
  intro s
  rw [exec_cipher, completed]

end Sys2Proof.Machine
end

section
/-! The statements of 44_control.md: what a completion changes and on what its result depends, how a command becomes
pending, and that a pending command keeps its operands until it completes. -/

namespace Sys2Proof.Machine

/-! NOP (44_control.md R212). -/

theorem exec_nop (s : State) : exec .nop s = .next (completed s) := by
  rw [exec, execNop]

/-- Settles O21: the completion step writes nothing before it ends as every command does (44_control.md R211). -/
theorem nopCompletesAndChangesNoData : Obligations.NopCompletesAndChangesNoData := by
  intro s
  rw [exec_nop, completed]

/-! What a completion leaves unchanged (44_control.md R211; 60_exceptions.md R246). -/

/-- Outside STATUS a byte of the window shows its own register only (20_memory.md R71). -/
theorem windowByte_congr {o : Nat} {s t : State} (status : regionOf o ≠ .status) (salt : t.salt = s.salt)
    (key : t.key = s.key) (inbuf : t.inbuf = s.inbuf) (block : regionOf o = .block → t.block = s.block)
    (digest : regionOf o = .digest → t.digest = s.digest) (out : regionOf o = .out → t.out = s.out) :
    windowByte o t = windowByte o s := by
  unfold windowByte
  cases hr : regionOf o with
  | status => exact absurd hr status
  | salt => simp [salt]
  | key => simp [key]
  | digest => simp [digest hr]
  | out => simp [out hr]
  | block => simp [block hr]
  | inbuf => simp [inbuf]
  | cmd | id | cap | ktab | sbox | reserved => rfl

/-- A completion writes its own result register at most (30_encoding.md R113, column "writes"), before it ends as every
command does. -/
theorem exec_writes {i : Instr} {s t : State} (h : exec i s = .next t) :
    ∃ (block : Block) (digest : Digest) (out : LoginHash),
      t = completed { s with block := block, digest := digest, out := out } ∧
      (resultRegion i ≠ some .block → block = s.block) ∧ (resultRegion i ≠ some .digest → digest = s.digest) ∧
      (resultRegion i ≠ some .out → out = s.out) := by
  rcases exec_cases h with ⟨rfl, rfl⟩ | ⟨_, _, rfl, -, -, rfl⟩ | ⟨rfl, rfl⟩ | ⟨rfl, rfl⟩ <;>
    exact ⟨_, _, _, rfl, by simp [resultRegion]⟩

theorem exec_completes {i : Instr} {s t : State} (h : exec i s = .next t) : t.pending = none ∧ t.done = true := by
  obtain ⟨_, _, _, rfl, -⟩ := exec_writes h
  exact ⟨rfl, rfl⟩

/-- Settles O25: a completion writes its result register, PENDING and DONE (`exec_writes`), and the window shows of
these only the result outside STATUS (`windowByte_congr`). -/
theorem completionChangesOnlyItsResult : Obligations.CompletionChangesOnlyItsResult := by
  intro i s t h
  obtain ⟨block, digest, out, rfl, hblock, hdigest, hout⟩ := exec_writes h
  refine ⟨rfl, rfl, rfl, rfl, rfl, rfl, rfl, hblock, hdigest, hout, fun o hstatus hother => ?_, ⟨rfl, rfl, rfl⟩,
    ⟨rfl, rfl, rfl⟩⟩
  exact windowByte_congr hstatus rfl rfl rfl (fun hr => hblock (hr ▸ hother)) (fun hr => hdigest (hr ▸ hother))
    (fun hr => hout (hr ▸ hother))

/-! The result as a function of the operands (44_control.md R215; 20_memory.md R91). -/

/-- What the operands of a command give: the bytes that its completion writes, if it has one. -/
def operandResult : Instr → State → List Byte
  | .nop, _ => []
  | .stretch len, s => (stretch ((inbufBytes len s).getD []) len).toList
  | .diffuse, s => (diffuse s.salt s.block).toList
  | .cipher, s => (cipher s.key s.digest).toList

theorem resultOf_exec {i : Instr} {s t : State} (h : exec i s = .next t) : resultOf i t = operandResult i s := by
  rcases exec_cases h with ⟨rfl, rfl⟩ | ⟨_, _, rfl, -, hbytes, rfl⟩ | ⟨rfl, rfl⟩ | ⟨rfl, rfl⟩
  · rfl
  · simp [resultOf, operandResult, hbytes]
  · rfl
  · rfl

/-- STRETCH's operand is LEN bytes of INBUF with their written-marks (41_stretcher.md R156). -/
theorem inbufBytes_congr {len : Nat} {s s' : State} (h : operandsAgree (.stretch len) s s') :
    inbufBytes len s = inbufBytes len s' := by
  refine Option.ext fun bytes => ?_
  rw [inbufBytes, inbufBytes, cellRun_eq_some, cellRun_eq_some]
  exact and_congr_right fun _ => forall₂_congr fun k hk => by rw [h k hk]

theorem operandResult_congr {i : Instr} {s s' : State} (h : operandsAgree i s s') :
    operandResult i s = operandResult i s' := by
  cases i with
  | nop => rfl
  | stretch len => rw [operandResult, operandResult, inbufBytes_congr h]
  | diffuse =>
    obtain ⟨hsalt, hblock⟩ := h
    rw [operandResult, operandResult, hsalt, hblock]
  | cipher =>
    obtain ⟨hkey, hdigest⟩ := h
    rw [operandResult, operandResult, hkey, hdigest]

/-- Settles O27: both completions write what the operands give (`resultOf_exec`), and the operands agree. -/
theorem resultDependsOnOperandsAlone : Obligations.ResultDependsOnOperandsAlone := by
  intro i s s' t t' hagree h h'
  calc resultOf i t = operandResult i s := resultOf_exec h
    _ = operandResult i s' := operandResult_congr hagree
    _ = resultOf i t' := (resultOf_exec h').symm

/-! Acceptance (44_control.md R210). -/

/-- The engine accepts a command word when it is idle and none of the grounds of rejection holds. -/
theorem presentCommand_accepted {w : Word} {i : Instr} {s : State} (hb : busy s = false) (hd : decode w = .ok i)
    (hfit : tooLong i = false) : presentCommand w s = acceptCommand i s := by
  simp [presentCommand, hb, hd, hfit]

/-- Settles O28: a word written to CMD is presented (20_memory.md R82) and decodes back to the command it encodes. -/
theorem acceptedCommandBecomesPending : Obligations.AcceptedCommandBecomesPending := by
  intro s i hwf hfit hb
  rw [hostWrite_word (by decide), windowWrite_cmd_word (regionOf_eq_cmd (by decide)),
    presentCommand_accepted hb (decode_encode hwf) hfit, acceptCommand]

/-! The completion's turn (44_control.md R211; 20_memory.md R83). -/

theorem step_completes {s : State} {i : Instr} (hr : resetDue s = false) (hp : s.pending = some i) (hd : s.delay = 0) :
    step s = exec i (tick s) := by
  have hturn : turn s = .engine i := by simp [turn, hr, hp, hd]
  rw [step, hturn]

/-- A word that the engine accepts stands decoded in PENDING with its delay run out (log 8). -/
theorem commandNext_accepted {w : Word} {i : Instr} (hd : decode w = .ok i) (hfit : tooLong i = false) (s : State) :
    commandNext w s = { s with pending := some i, delay := 0, resetAfter := [] } := by
  simp [commandNext, hd, hfit]

/-- Settles O52: the word set as next is due (`commandNext_accepted`), and a step's time passes it by: neither a delay
nor a reset is left to come nearer. -/
theorem stepRunsTheDecodedCommand : Obligations.StepRunsTheDecodedCommand := by
  refine ⟨fun s i => step_completes, fun s nbits w i hd hfit => ?_⟩
  rw [State.withFetchWord, commandNext_accepted hd hfit, step_completes rfl rfl rfl]
  rfl

/-! What the host can do to a pending command (44_control.md R214; 70_reset_and_hazards.md R284). -/

theorem sameData_trans {s t u : State} (hst : sameData s t) (htu : sameData t u) : sameData s u := by
  obtain ⟨hsalt, hkey, hdigest, hout, hblock, hinbuf⟩ := hst
  obtain ⟨hsalt', hkey', hdigest', hout', hblock', hinbuf'⟩ := htu
  exact ⟨hsalt'.trans hsalt, hkey'.trans hkey, hdigest'.trans hdigest, hout'.trans hout, hblock'.trans hblock,
    hinbuf'.trans hinbuf⟩

theorem operandsAgree_of_sameData {s t : State} (h : sameData s t) (i : Instr) : operandsAgree i s t := by
  obtain ⟨hsalt, hkey, hdigest, -, hblock, hinbuf⟩ := h
  cases i with
  | nop => trivial
  | stretch len => exact fun _ _ => by rw [hinbuf]
  | diffuse => exact ⟨hsalt.symm, hblock.symm⟩
  | cipher => exact ⟨hkey.symm, hdigest.symm⟩

/-- From `s` to `t` the pending command goes on as if nothing had happened: it, the data registers and the schedule
stay, and DONE is not set. -/
structure Undisturbed (s t : State) : Prop where
  pending : t.pending = s.pending
  data : sameData s t
  done : t.done = true → s.done = true
  delay : t.delay = s.delay
  resetAfter : t.resetAfter = s.resetAfter

/-- What a write can do while BUSY = 1 is to touch STATUS (`hostWrite_busy`). -/
theorem hostWrite_undisturbed {width : Width} {off : Offset} {v : Word} {s t : State} (hb : busy s = true)
    (h : hostWrite width off v s = .next t) : Undisturbed s t := by
  rcases hostWrite_busy hb h with rfl | rfl | rfl <;> constructor <;> simp [sameData]

theorem hostOp_undisturbed {op : HostOp} {s t : State} (hb : busy s = true) (h : hostOp op s = .next t) :
    Undisturbed s t := by
  rcases hostOp_cases h with ⟨_, _, _, u, -, hw, rfl⟩ | ⟨_, off, _, _, u, -, hread, rfl⟩ | ⟨_, _, _, -, k, rfl⟩
  · obtain ⟨hpending, hdata, hdone, hdelay, hresets⟩ := hostWrite_undisturbed hb hw
    exact ⟨hpending, hdata, hdone, hdelay, hresets⟩
  · obtain ⟨n, rfl⟩ := hostRead_next hread
    exact ⟨by simp, sameData_drawn off.toNat n s, by simp, by simp, by simp⟩
  · constructor <;> simp [sameData]

theorem hostStep_undisturbed {s t : State} (hb : busy s = true) (h : hostStep s = .next t) : Undisturbed s t := by
  rcases hostStep_cases h with ⟨-, rfl⟩ | ⟨l, -, hl⟩
  · constructor <;> simp [sameData]
  · exact hostOp_undisturbed hb hl

/-- While the delay has not run out, a step that is no reset only passes its time. -/
theorem step_undisturbed {s t : State} (hb : busy s = true) (hr : resetDue s = false) (hd : s.delay ≠ 0)
    (h : step s = .next t) : Undisturbed (tick s) t := by
  rw [step, turn_eq_host hr (.inr hd)] at h
  exact hostStep_undisturbed hb h

/-! The wait of a command from its acceptance to its completion (44_control.md R214). -/

/-- A command is pending and no reset comes before its completion step. -/
structure Waits (i : Instr) (s : State) : Prop where
  pending : s.pending = some i
  noReset : ∀ k, s.resetAfter.head? = some k → s.delay < k

theorem Waits.resetDue_eq_false {i : Instr} {s : State} (h : Waits i s) : resetDue s = false := by
  rw [resetDue, beq_eq_false_iff_ne]
  exact fun hdue => Nat.not_lt_zero _ (h.noReset 0 hdue)

theorem Waits.busy_eq_true {i : Instr} {s : State} (h : Waits i s) : busy s = true := by
  rw [busy, h.pending, Option.isSome_some]

theorem head?_resetsNearer (resets : List Nat) : (resetsNearer resets).head? = resets.head?.map (· - 1) := by
  cases resets <;> rfl

/-- A step of the wait: the completion and the next reset both come one step nearer, and the data stays. -/
theorem Waits.step_keeps {i : Instr} {s t : State} (h : Waits i s) (hd : s.delay ≠ 0) (hs : step s = .next t) :
    Waits i t ∧ t.delay + 1 = s.delay ∧ sameData s t := by
  obtain ⟨hpending, hdata, -, hdelay, hresets⟩ := step_undisturbed h.busy_eq_true h.resetDue_eq_false hd hs
  rw [tick_delay] at hdelay
  refine ⟨⟨hpending.trans h.pending, fun k hk => ?_⟩, by omega, hdata⟩
  rw [hresets, tick_resetAfter, head?_resetsNearer, Option.map_eq_some_iff] at hk
  obtain ⟨k', hk', rfl⟩ := hk
  have := h.noReset k' hk'
  omega

theorem runSteps_succ_next {n : Nat} {s u : State} (h : runSteps (n + 1) s = .next u) :
    ∃ t, step s = .next t ∧ runSteps n t = .next u := by
  rw [runSteps] at h
  split at h
  next t ht => exact ⟨t, ht, h⟩
  all_goals cases h

/-- The wait to its end: after as many steps as the delay, the command is due with the data it had. -/
theorem Waits.runSteps_keeps {i : Instr} {n : Nat} {s u : State} (h : Waits i s) (hn : s.delay = n)
    (hrun : runSteps n s = .next u) : Waits i u ∧ u.delay = 0 ∧ sameData s u := by
  induction n generalizing s with
  | zero =>
    cases hrun
    exact ⟨h, hn, by simp [sameData]⟩
  | succ n ih =>
    obtain ⟨t, hstep, hrest⟩ := runSteps_succ_next hrun
    obtain ⟨ht, hdelay, hst⟩ := h.step_keeps (by omega) hstep
    obtain ⟨hu, hdue, htu⟩ := ih ht (by omega) hrest
    exact ⟨hu, hdue, sameData_trans hst htu⟩

/-- Settles O59: by induction over the delay the command comes due with the data it had (`Waits.runSteps_keeps`), so its
completion step writes what the same operands gave at the start (O27). -/
theorem pendingCommandCompletesWithItsOperands : Obligations.PendingCommandCompletesWithItsOperands := by
  intro s u i hpending hreset hrun
  have hwait : Waits i s := ⟨hpending, hreset⟩
  obtain ⟨hu, hdue, hdata⟩ := hwait.runSteps_keeps rfl hrun
  have hstep : step u = exec i (tick u) := step_completes hu.resetDue_eq_false hu.pending hdue
  refine ⟨hstep, hdata, fun t t' ht ht' => ⟨?_, exec_completes (hstep ▸ ht)⟩⟩
  have htick : sameData s (tick u) := hdata
  exact (resultDependsOnOperandsAlone i s (tick u) t' t (operandsAgree_of_sameData htick i) ht' (hstep ▸ ht)).symm

end Sys2Proof.Machine
end

section
/-! The statements of 45_adapters.md: the stretcher in two parts for an input longer than INBUF, as functions and as the
host's lines, and the commands that compute the two login hashes. -/

namespace Sys2Proof.Machine

/-! The two parts as functions (45_adapters.md R228). -/

theorem length_longTail {pw : List Byte} {declared : Nat} (h : declared ≤ pw.length) :
    (longTail pw declared).length = longTailLength pw declared := by
  have hle := trimmedLength_le pw declared
  rw [longTail, List.length_take, List.length_drop, longTailLength]
  omega

theorem longTailLength_lt (pw : List Byte) (declared : Nat) : longTailLength pw declared < 32 :=
  Nat.mod_lt _ (by decide)

/-- The tail's bytes are the input's after the full blocks. -/
theorem getD_longTail {pw : List Byte} {declared i : Nat} (hi : i < longTailLength pw declared) :
    (longTail pw declared).getD i 0#8 = pw.getD (32 * (trimmedLength pw declared / 32) + i) 0#8 := by
  rw [longTail, getD_take hi, List.getD_eq_getElem?_getD, List.getD_eq_getElem?_getD, List.getElem?_drop]

theorem trimmedLength_of_last_ne {inp : List Byte} {n : Nat} (h : 0 < n → inp.getD (n - 1) 0#8 ≠ 0#8) :
    trimmedLength inp n = n := by
  cases n with
  | zero => rfl
  | succ n => exact if_neg (h (Nat.succ_pos n))

/-- The tail ends in the trimmed input's last byte, which is not 0, so STRETCH's own trim does nothing to it. -/
theorem trimmedLength_longTail (pw : List Byte) (declared : Nat) :
    trimmedLength (longTail pw declared) (longTailLength pw declared) = longTailLength pw declared := by
  refine trimmedLength_of_last_ne fun hpos => ?_
  have hlast : 32 * (trimmedLength pw declared / 32) + (longTailLength pw declared - 1) =
      trimmedLength pw declared - 1 := by
    simp only [longTailLength] at hpos ⊢
    omega
  rw [getD_longTail (by omega), hlast]
  exact getD_trimmedLength_pred_ne (Nat.pos_of_ne_zero fun h => by simp [longTailLength, h] at hpos)

/-- The tail has no full block, so stretching it gives the final pass alone. -/
theorem byteAt_stretch_longTail (pw : List Byte) (declared : Nat) {s : Nat} (hs : s < 32) :
    byteAt (stretch (longTail pw declared) (longTailLength pw declared)) s =
      tailByte pw (32 * (trimmedLength pw declared / 32)) (longTailLength pw declared) s := by
  have hlt := longTailLength_lt pw declared
  rw [byteAt_stretch _ _ hs, trimmedLength_longTail, Nat.div_eq_of_lt hlt, Nat.mod_eq_of_lt hlt, foldBlocks,
    byteAt_zeroBytes, BitVec.zero_xor]
  unfold tailByte
  split
  next => rfl
  next hne =>
    have hcursor : s % (longTailLength pw declared + 1) < longTailLength pw declared + 1 :=
      Nat.mod_lt s (Nat.succ_pos _)
    rw [Nat.mul_zero, Nat.zero_add, getD_longTail (by omega)]

/-- The XOR of two blocks, byte for byte. -/
def xorBlock (a b : Block) : Block := Vector.ofFn fun s : Fin 32 => byteAt a s ^^^ byteAt b s

theorem byteAt_xorBlock (a b : Block) {s : Nat} (hs : s < 32) :
    byteAt (xorBlock a b) s = byteAt a s ^^^ byteAt b s := by
  rw [xorBlock, byteAt_ofFn, dif_pos hs]

theorem longStretch_eq_xorBlock (pw : List Byte) (declared : Nat) :
    longStretch pw declared =
      xorBlock (stretch (longTail pw declared) (longTailLength pw declared)) (longAcc pw declared) := rfl

/-- Each byte of the block is a byte of the folded blocks and one of the final pass, in either order. -/
theorem longStretch_eq_stretch (pw : List Byte) (declared : Nat) : longStretch pw declared = stretch pw declared := by
  refine bytes_ext fun s hs => ?_
  rw [longStretch_eq_xorBlock, byteAt_xorBlock _ _ hs, byteAt_stretch_longTail pw declared hs,
    byteAt_stretch pw declared hs, BitVec.xor_comm, longAcc, longTailLength]

/-! Runs of lines that end in one more line. -/

theorem runLines_append_next {a b : List HostLine} {s t : State} (h : runLines a s = .next t) :
    runLines (a ++ b) s = runLines b t := by
  rw [runLines_append, h]

theorem runLines_concat {a : List HostLine} {op : HostOp} {s t u : State} (ha : runLines a s = .next t)
    (hop : hostOp op t = .next u) : runLines (a ++ [plainLine op]) s = .next u := by
  simp [runLines_append_next ha, runLines, plainLine, hop]

theorem hostOp_wr {width : Width} {off : Offset} {v : Word} {s t : State} (h : hostWrite width off v s = .next t) :
    hostOp (.wr width off v) s = .next (nextLine t) := by
  simp [hostOp, hostStore, h]

/-! LOADIN (30_encoding.md R118). -/

theorem loadInLines_concat (bs : List Byte) (b : Byte) :
    loadInLines (bs ++ [b]) =
      loadInLines bs ++ [plainLine (.wr .w8 (BitVec.ofNat 16 (inbufBase + bs.length)) (b.zeroExtend 32))] := by
  simp [loadInLines, List.zipIdx_append]

/-- A byte written to INBUF is stored with its written-mark (10_state.md R50). -/
theorem hostWrite_inbuf {s : State} {k : Nat} (hb : busy s = false) (hk : k < Config.inBytes) (b : Byte) :
    hostWrite .w8 (BitVec.ofNat 16 (inbufBase + k)) (b.zeroExtend 32) s =
      .next { s with inbuf := cellInsert (inbufBase + k) b s.inbuf } := by
  have hoff : (BitVec.ofNat 16 (inbufBase + k)).toNat = inbufBase + k := by
    have hle := inBytes_le
    rw [BitVec.toNat_ofNat, inbufBase]
    omega
  have hr : regionOf (inbufBase + k) = .inbuf := regionOf_eq_inbuf.mpr (by omega)
  have hbyte : (b.zeroExtend 32).truncate 8 = b := by simp
  rw [hostWrite_byte_store (by rw [hoff, hr]; rfl) hb, hoff, hbyte]
  simp [storeBytes, storeByte, hr]

/-- LOADIN on the idle engine leaves the string in INBUF and touches nothing else but the host's line. -/
theorem runLines_loadInLines {s : State} (hb : busy s = false) (bytes : List Byte)
    (hlen : bytes.length ≤ Config.inBytes) :
    ∃ inbuf line, runLines (loadInLines bytes) s = .next { s with inbuf := inbuf, line := line } ∧
      inbufHolds bytes { s with inbuf := inbuf, line := line } := by
  induction bytes using List.reverseRecOn with
  | nil => exact ⟨s.inbuf, s.line, rfl, fun k hk => absurd hk (Nat.not_lt_zero k)⟩
  | append_singleton bs b ih =>
    rw [List.length_append, List.length_singleton] at hlen
    have hk : bs.length < Config.inBytes := by omega
    obtain ⟨inbuf, line, hrun, hholds⟩ := ih hk.le
    refine ⟨cellInsert (inbufBase + bs.length) b inbuf, line + 1, ?_, fun k hk => ?_⟩
    · have hwrite := hostWrite_inbuf (s := { s with inbuf := inbuf, line := line }) hb hk b
      rw [loadInLines_concat]
      exact runLines_concat hrun (hostOp_wr hwrite)
    · rw [List.length_append, List.length_singleton] at hk
      rw [cellFind_insert]
      rcases Nat.lt_succ_iff_lt_or_eq.mp hk with hlt | rfl
      · rw [if_neg (by omega), List.getD_append bs [b] _ k hlt]
        exact hholds k hlt
      · simp

/-- The lines of R228, step 3, up to the STRETCH, on the idle engine: the tail stands in INBUF and its STRETCH is
pending. -/
theorem runLines_longTailLines {pw : List Byte} {declared : Nat} (h : declared ≤ pw.length) {s : State}
    (hb : busy s = false) :
    ∃ inbuf line,
      runLines (longTailLines pw declared) s =
        .next (acceptCommand (.stretch (longTailLength pw declared)) { s with inbuf := inbuf, line := line }) ∧
      inbufHolds (longTail pw declared)
        (acceptCommand (.stretch (longTailLength pw declared)) { s with inbuf := inbuf, line := line }) := by
  have hlen := length_longTail h
  have hlt := longTailLength_lt pw declared
  have hcap := le_inBytes
  obtain ⟨inbuf, line, hrun, hholds⟩ := runLines_loadInLines hb (longTail pw declared) (by omega)
  have hwf : (Instr.stretch (longTailLength pw declared)).wellFormed = true := decide_eq_true (by omega)
  have hfit : tooLong (.stretch (longTailLength pw declared)) = false := decide_eq_false (by omega)
  have hcmd := acceptedCommandBecomesPending { s with inbuf := inbuf, line := line } _ hwf hfit hb
  exact ⟨inbuf, line + 1, runLines_concat hrun (hostOp_wr hcmd), hholds⟩

/-! The words of BLOCK (45_adapters.md R228, step 4). -/

theorem wordByte_xor (v w : Word) (j : Nat) : wordByte (v ^^^ w) j = wordByte v j ^^^ wordByte w j :=
  BitVec.extractLsb'_xor

theorem wordByte_wordOf_at {n : Nat} (v : Vector Byte n) (k : Nat) {j : Nat} (hj : j < 4) :
    wordByte (wordOf v k) j = byteAt v (4 * k + j) := by
  have h := wordByte_wordOf v (4 * k + j)
  rwa [show (4 * k + j) / 4 = k by omega, show (4 * k + j) % 4 = j by omega] at h

theorem toNat_blockOffset {k : Nat} (hk : k < 8) : (BitVec.ofNat 16 (0x0040 + 4 * k)).toNat = 0x0040 + 4 * k := by
  rw [BitVec.toNat_ofNat]
  omega

theorem hostRead_block {s : State} (hb : busy s = false) {k : Nat} (hk : k < 8) :
    hostRead .w32 (BitVec.ofNat 16 (0x0040 + 4 * k)) s = .next (wordOf s.block k, s) := by
  have hoff := toNat_blockOffset hk
  refine hostRead_word_idle (by omega) hb fun j hj => ?_
  rw [hoff, Nat.add_assoc, windowByte_block (by omega), wordByte_wordOf_at s.block k hj]

/-- BLOCK with its `k`-th word replaced. -/
def setWord (b : Block) (k : Nat) (w : Word) : Block :=
  setByte (setByte (setByte (setByte b (4 * k) (wordByte w 0)) (4 * k + 1) (wordByte w 1)) (4 * k + 2) (wordByte w 2))
    (4 * k + 3) (wordByte w 3)

theorem byteAt_setWord_same (b : Block) {k j : Nat} (hk : k < 8) (hj : j < 4) (w : Word) :
    byteAt (setWord b k w) (4 * k + j) = wordByte w j := by
  have hlast : 4 * k + 3 < 32 := by omega
  interval_cases j <;> simp [setWord, byteAt_setByte] <;> omega

theorem byteAt_setWord_below (b : Block) {k i : Nat} (h : i < 4 * k) (w : Word) :
    byteAt (setWord b k w) i = byteAt b i := by
  unfold setWord
  iterate 4 rw [byteAt_setByte_other _ _ (by omega)]

theorem storeByte_block {k : Nat} (hk : k < 32) (b : Byte) (s : State) :
    storeByte (0x40 + k) b s = { s with block := setByte s.block k b } := by
  have hr : regionOf (0x40 + k) = .block := (regionOf_eq_iff (by decide)).mpr (by simp only [Region.Holds]; omega)
  simp [storeByte, hr]

theorem hostWrite_block {s : State} (hb : busy s = false) {k : Nat} (hk : k < 8) (w : Word) :
    hostWrite .w32 (BitVec.ofNat 16 (0x0040 + 4 * k)) w s = .next { s with block := setWord s.block k w } := by
  have hoff := toNat_blockOffset hk
  have hw : (regionOf (0x0040 + 4 * k)).writable = true := (writable_regionOf_iff _).mpr (by omega)
  rw [hostWrite_word_store (by omega) (by rwa [hoff]) hb, hoff]
  simp only [wordBytes, storeBytes, Nat.add_assoc]
  rw [storeByte_block (by omega), storeByte_block (by omega), storeByte_block (by omega), storeByte_block (by omega)]
  rfl

theorem hostOp_xorBlock {s : State} (hb : busy s = false) {k : Nat} (hk : k < 8) (name : Nat) (w : Word) :
    hostOp (.wrXor .w32 (BitVec.ofNat 16 (0x0040 + 4 * k)) name w) s =
      .next (nextLine { s with block := setWord s.block k (hostName s name ^^^ w) }) :=
  hostOp_wrXor (hostWrite_block hb hk _)

/-! The lines that read BLOCK and write it back (45_adapters.md R228, step 4). -/

/-- The first `k` read lines leave the first `k` words of BLOCK in the host's registers, and the engine as it was. -/
theorem runLines_readBlock {s : State} (hb : busy s = false) (name : Nat) {k : Nat} (hk : k ≤ 8) :
    ∃ names line, runLines (readLines 0x0040 k name) s = .next { s with names := names, line := line } ∧
      ∀ j, j < k → hostName { s with names := names } (name + j) = wordOf s.block j := by
  induction k with
  | zero => exact ⟨s.names, s.line, rfl, fun j hj => absurd hj (Nat.not_lt_zero j)⟩
  | succ k ih =>
    have hlt : k < 8 := hk
    obtain ⟨names, line, hrun, hnames⟩ := ih hlt.le
    refine ⟨cellInsert (name + k) (wordOf s.block k) names, line + 1, ?_, fun j hj => ?_⟩
    · have hread := hostRead_block (s := { s with names := names, line := line }) hb hlt
      rw [readLines, List.range_succ, List.map_append]
      exact runLines_concat hrun (hostOp_rd hread (name + k))
    · refine (hostName_afterRead (name + k) (wordOf s.block k) { s with names := names } (name + j)).trans ?_
      rcases Nat.lt_succ_iff_lt_or_eq.mp hj with hbefore | rfl
      · rw [if_neg (by omega), hnames j hbefore]
      · exact if_pos rfl

/-- The first `k` of the lines of R228, step 4, that write BLOCK back. -/
def xorWriteLines (acc : Block) (name k : Nat) : List HostLine :=
  (List.range k).map fun j =>
    plainLine (.wrXor .w32 (BitVec.ofNat 16 (0x0040 + 4 * j)) (name + j) (wordOf acc j))

theorem xorBlockLines_eq (acc : Block) (name : Nat) :
    xorBlockLines acc name = readLines 0x0040 8 name ++ xorWriteLines acc name 8 := rfl

theorem xorWriteLines_succ (acc : Block) (name k : Nat) :
    xorWriteLines acc name (k + 1) = xorWriteLines acc name k ++
      [plainLine (.wrXor .w32 (BitVec.ofNat 16 (0x0040 + 4 * k)) (name + k) (wordOf acc k))] := by
  simp [xorWriteLines, List.range_succ]

/-- After the first `k` of these lines the first `k` words of BLOCK are the words of `old` in the host's registers, XORed
with `acc`'s, and nothing else of the engine has changed. -/
theorem runLines_xorWriteLines {s : State} (hb : busy s = false) (old acc : Block) (name : Nat)
    (hnames : ∀ j, j < 8 → hostName s (name + j) = wordOf old j) {k : Nat} (hk : k ≤ 8) :
    ∃ block line, runLines (xorWriteLines acc name k) s = .next { s with block := block, line := line } ∧
      ∀ i, i < 4 * k → byteAt block i = byteAt old i ^^^ byteAt acc i := by
  induction k with
  | zero => exact ⟨s.block, s.line, rfl, fun i hi => absurd hi (Nat.not_lt_zero i)⟩
  | succ k ih =>
    have hlt : k < 8 := hk
    obtain ⟨block, line, hrun, hblock⟩ := ih hlt.le
    refine ⟨setWord block k (hostName s (name + k) ^^^ wordOf acc k), line + 1, ?_, fun i hi => ?_⟩
    · have hline := hostOp_xorBlock (s := { s with block := block, line := line }) hb hlt (name + k) (wordOf acc k)
      rw [xorWriteLines_succ]
      exact runLines_concat hrun hline
    · rcases Nat.lt_or_ge i (4 * k) with hbefore | hge
      · rw [byteAt_setWord_below block hbefore, hblock i hbefore]
      · obtain ⟨j, rfl⟩ := Nat.exists_eq_add_of_le hge
        rw [byteAt_setWord_same block hlt (by omega), hnames k hlt, wordByte_xor, wordByte_wordOf_at old k (by omega),
          wordByte_wordOf_at acc k (by omega)]

/-- R228, step 4, on the idle engine: BLOCK takes its XOR with `acc`, and nothing else of the engine changes. -/
theorem runLines_xorBlockLines {s : State} (hb : busy s = false) (acc : Block) (name : Nat) :
    ∃ names line, runLines (xorBlockLines acc name) s =
      .next { s with block := xorBlock s.block acc, names := names, line := line } := by
  obtain ⟨names, line, hread, hnames⟩ := runLines_readBlock hb name (Nat.le_refl 8)
  obtain ⟨block, line', hwrite, hblock⟩ := runLines_xorWriteLines (s := { s with names := names, line := line }) hb
    s.block acc name hnames (Nat.le_refl 8)
  have hxor : block = xorBlock s.block acc := bytes_ext fun i hi => by
    rw [hblock i hi, byteAt_xorBlock _ _ hi]
  exact ⟨names, line', by rw [xorBlockLines_eq, runLines_append_next hread, hwrite, hxor]⟩

theorem busy_completed (s : State) : busy (completed s) = false := rfl

/-- The completion of the tail's STRETCH and then step 4 leave the whole input's block. -/
theorem longTail_completes {pw : List Byte} {declared : Nat} (h : declared ≤ pw.length) {t : State}
    (hholds : inbufHolds (longTail pw declared) t) (name : Nat) :
    ∃ block names line,
      exec (.stretch (longTailLength pw declared)) t = .next (completed { t with block := block }) ∧
      runLines (xorBlockLines (longAcc pw declared) name) (completed { t with block := block }) =
        .next { completed { t with block := block } with
          block := stretch pw declared, names := names, line := line } := by
  have hlt := longTailLength_lt pw declared
  have hcap := le_inBytes
  have hwritten := inbufBytes_of_inbufHolds hholds
  rw [length_longTail h] at hwritten
  obtain ⟨names, line, hxor⟩ := runLines_xorBlockLines
    (busy_completed { t with block := stretch (longTail pw declared) (longTailLength pw declared) })
    (longAcc pw declared) name
  simp only [completed_block, ← longStretch_eq_xorBlock, longStretch_eq_stretch] at hxor
  exact ⟨_, names, line, exec_stretch_of_written (by omega) hwritten, hxor⟩

/-- Settles O13: `longStretch_eq_stretch` for the functions; on the engine the tail's STRETCH is accepted
(`runLines_longTailLines`), completes, and the last lines XOR `acc` into BLOCK (`longTail_completes`). -/
theorem longInputStretchesInTwoParts : Obligations.LongInputStretchesInTwoParts := by
  intro pw declared h
  refine ⟨longStretch_eq_stretch pw declared, fun s hb => ?_⟩
  obtain ⟨inbuf, line, hload, hholds⟩ := runLines_longTailLines h hb
  obtain ⟨block, names, line', hexec, hxor⟩ := longTail_completes h hholds 1
  exact ⟨_, _, _, hload, rfl, hexec, hxor, by simp⟩

/-! The login hashes (45_adapters.md R220 to R227). -/

/-- R221: DIFFUSE over the stretched password and the identifier's salt gives the stored hash. -/
theorem diffuse_stretch_eq_storedHash (id : Word) (pw : List Byte) :
    diffuse (objectSalt id) (stretch pw pw.length) = storedHash id pw := rfl

/-- R227: the client and the server agree when the server holds the stored hash. -/
theorem clientLogin_eq_serverLogin (id : Word) (key : Key) (pw : List Byte) :
    clientLogin id key pw = serverLogin key (storedHash id pw) := rfl

/-- Settles O60: each completion leaves its result in the operand of the next (`exec_stretch_of_written`,
`exec_diffuse`, `exec_cipher`), and the server's CIPHER has the same two operands as the client's. -/
theorem commandSequenceComputesTheLogin : Obligations.CommandSequenceComputesTheLogin := by
  intro s s' id key pw hlen hholds hsalt hkey hkey' hdigest'
  have hstored : diffuse s.salt (stretch pw pw.length) = storedHash id pw := by
    rw [hsalt, diffuse_stretch_eq_storedHash]
  have hclient : cipher s.key (diffuse s.salt (stretch pw pw.length)) = clientLogin id key pw := by
    rw [hstored, hkey, clientLogin]
  have hserver : cipher s'.key s'.digest = clientLogin id key pw := by
    rw [hkey', hdigest', clientLogin]
  have hagree : cipher s'.key s'.digest = cipher s.key (diffuse s.salt (stretch pw pw.length)) :=
    hserver.trans hclient.symm
  refine ⟨_, _, _, _, exec_stretch_of_written hlen (inbufBytes_of_inbufHolds hholds), exec_diffuse _, exec_cipher _,
    exec_cipher s', ?_⟩
  simp only [completed_salt, completed_key, completed_block, completed_digest, completed_out, true_and]
  exact ⟨hstored, hclient, hagree, hclient.trans (clientLogin_eq_serverLogin id key pw), decide_eq_true hagree.symm⟩

end Sys2Proof.Machine
end

section
/-! The statements of 60_exceptions.md: what stops a completion, which command words the engine rejects, what a write
does while a command is pending, and how long an error stays on record. -/

namespace Sys2Proof.Machine

/-! What stops a completion (60_exceptions.md R240; 41_stretcher.md R156). -/

theorem cellRun_eq_none {m : Memory} {a n : Nat} :
    cellRun m a n = none ↔ ∃ k, k < n ∧ cellFind m (a + k) = none := by
  induction n generalizing a with
  | zero => simp [cellRun]
  | succ n ih =>
    rw [Nat.exists_lt_succ_left, Nat.add_zero]
    simp only [← Nat.add_assoc, Nat.add_right_comm a _ 1, ← ih]
    rw [cellRun]
    cases cellFind m a <;> cases cellRun m (a + 1) n <;> simp

theorem exec_stretch_fault_iff {len : Nat} {s : State} :
    exec (.stretch len) s = .fault .stretchUnwritten ↔
      Config.inBytes < len ∨ ∃ k, k < len ∧ cellFind s.inbuf (inbufBase + k) = none := by
  rw [← cellRun_eq_none, ← inbufBytes]
  simp only [exec, execStretch]
  split_ifs with hlen
  · cases inbufBytes len s <;> simp [hlen]
  · simp [Nat.lt_of_not_le hlen]

theorem exec_fault {i : Instr} {s : State} {f : Fault} (h : exec i s = .fault f) :
    ∃ len, i = .stretch len ∧ f = .stretchUnwritten := by
  cases i with
  | nop => rw [exec_nop] at h; cases h
  | stretch len =>
    simp only [exec, execStretch] at h
    split_ifs at h
    · split at h <;> cases h
      exact ⟨len, rfl, rfl⟩
    · cases h
      exact ⟨len, rfl, rfl⟩
  | diffuse => rw [exec_diffuse] at h; cases h
  | cipher => rw [exec_cipher] at h; cases h

/-- Settles O26: only STRETCH can fault (`exec_fault`), and it does exactly on the two grounds of
`exec_stretch_fault_iff`. -/
theorem onlyUnwrittenInputStopsACompletion : Obligations.OnlyUnwrittenInputStopsACompletion := by
  refine fun i s => ⟨exec_ne_refused i s, ⟨?_, ?_⟩, ?_⟩
  · rintro ⟨f, hf⟩
    obtain ⟨len, rfl, rfl⟩ := exec_fault hf
    exact ⟨len, rfl, hf, exec_stretch_fault_iff.mp hf⟩
  · rintro ⟨_, -, hf, -⟩
    exact ⟨_, hf⟩
  · rintro len rfl hgrounds
    exact exec_stretch_fault_iff.mpr hgrounds

/-! Recording an error (60_exceptions.md R245). -/

theorem raiseError_of_err {s : State} (h : s.err = true) (e : ErrorCode) : raiseError e s = s := if_pos h

theorem raiseError_of_noErr {s : State} (h : s.err = false) (e : ErrorCode) :
    raiseError e s = { s with err := true, errcode := e.code } := by
  simp [raiseError, h]

theorem raiseError_eq_keptCode (e : ErrorCode) (s : State) :
    raiseError e s = { s with err := true, errcode := keptCode s e } := raiseError_eq e s

theorem rejectCommand_eq_keptCode (e : ErrorCode) (s : State) :
    rejectCommand e s = { s with done := true, err := true, errcode := keptCode s e } := rejectCommand_eq e s

/-! Presenting a word (60_exceptions.md R242, R243, R246, R247). -/

theorem hostWrite_cmd_word (w : Word) (s : State) :
    hostWrite .w32 0x0000#16 w s = .next (presentCommand w s) := by
  rw [hostWrite_word rfl, windowWrite_cmd_word rfl]

theorem presentCommand_busy {s : State} (hb : busy s = true) (w : Word) :
    presentCommand w s = raiseError .busy s := if_pos hb

theorem presentCommand_illegal {w : Word} {g : DecodeError} {s : State} (hb : busy s = false)
    (hd : decode w = .error g) : presentCommand w s = rejectCommand .illegal s := by
  simp [presentCommand, hb, hd]

theorem presentCommand_tooLong {w : Word} {i : Instr} {s : State} (hb : busy s = false) (hd : decode w = .ok i)
    (hlong : tooLong i = true) : presentCommand w s = rejectCommand .length s := by
  simp [presentCommand, hb, hd, hlong]

theorem tooLong_stretch (len : Nat) : tooLong (.stretch len) = true ↔ Config.inBytes < len := decide_eq_true_iff

/-- Settles O29: the word decodes back to its STRETCH, which is too long exactly above P_IN_BYTES. -/
theorem overlongStretchIsRejected : Obligations.OverlongStretchIsRejected := by
  intro s len hlen hb
  have hdecode : decode (encode (.stretch len)) = .ok (.stretch len) := decode_encode (decide_eq_true hlen)
  rw [hostWrite_cmd_word]
  refine ⟨fun hlong => ?_, fun hfit => ?_⟩
  · rw [presentCommand_tooLong hb hdecode ((tooLong_stretch len).mpr hlong), rejectCommand_eq_keptCode]
  · have hshort : tooLong (.stretch len) = false := by simpa [tooLong] using hfit
    exact ⟨_, congrArg _ (presentCommand_accepted hb hdecode hshort), rfl, rfl, rfl⟩

/-- The idle engine rejects the word with this error (60_exceptions.md R242, R243). -/
def RejectedWith (w : Word) (e : ErrorCode) : Prop :=
  (e = .illegal ∧ ∃ g, decode w = .error g) ∨ (e = .length ∧ ∃ i, decode w = .ok i ∧ tooLong i = true)

theorem exists_rejectedWith {w : Word} :
    (∃ e, RejectedWith w e) ↔ (∃ g, decode w = .error g) ∨ ∃ i, decode w = .ok i ∧ tooLong i = true := by
  simp [RejectedWith, exists_or]

theorem presentCommand_rejectedWith {w : Word} {e : ErrorCode} {s : State} (hb : busy s = false)
    (h : RejectedWith w e) : presentCommand w s = rejectCommand e s := by
  rcases h with ⟨rfl, g, hd⟩ | ⟨rfl, i, hd, hlong⟩
  · exact presentCommand_illegal hb hd
  · exact presentCommand_tooLong hb hd hlong

theorem pending_eq_none_of_idle {s : State} (hb : busy s = false) : s.pending = none := by
  simpa [busy] using hb

/-- Of the words presented to the idle engine, those with a ground of rejection leave nothing pending. -/
theorem presentCommand_pending_eq_none {w : Word} {s : State} (hb : busy s = false) :
    (presentCommand w s).pending = none ↔ ∃ e, RejectedWith w e := by
  constructor
  · intro hnone
    rcases presentCommand_cases w s with ⟨hbusy, -⟩ | ⟨-, hd, -⟩ | ⟨-, i, hd, hlong, -⟩ | ⟨-, i, -, -, hp⟩
    · rw [hb] at hbusy; cases hbusy
    · exact ⟨_, .inl ⟨rfl, hd⟩⟩
    · exact ⟨_, .inr ⟨rfl, i, hd, hlong⟩⟩
    · rw [hp] at hnone; cases hnone
  · rintro ⟨e, he⟩
    rw [presentCommand_rejectedWith hb he, rejectCommand_pending, pending_eq_none_of_idle hb]

/-! Writes (60_exceptions.md R244). -/

/-- A host write that answers a next state is one of the two effects of `windowWrite`. -/
theorem hostWrite_next {width : Width} {off : Offset} {v : Word} {s t : State}
    (h : hostWrite width off v s = .next t) :
    (width = .w8 ∧ t = windowWrite false off.toNat v s) ∨
    (width = .w32 ∧ off.toNat % 4 = 0 ∧ t = windowWrite true off.toNat v s) := by
  rcases hostWrite_cases width off v s with ⟨hw, he⟩ | ⟨hw, ha, he⟩ | ⟨-, -, he⟩ | ⟨-, he⟩ <;> rw [he] at h <;> cases h
  · exact .inl ⟨hw, rfl⟩
  · exact .inr ⟨hw, ha, rfl⟩

/-- A write to an RW data register while BUSY = 1 records E_BUSY and stores nothing. -/
theorem windowWrite_busy {s : State} {o : Nat} (hb : busy s = true) (hw : (regionOf o).writable = true) (whole : Bool)
    (v : Word) : windowWrite whole o v s = raiseError .busy s := by
  unfold windowWrite
  split
  next hr => simp [hr, Region.writable] at hw
  next hr => simp [hr, Region.writable] at hw
  next => rw [if_pos hw, if_pos hb]

/-- Outside CMD and the RW data registers a write can only clear bits of STATUS. -/
theorem windowWrite_readOnly {o : Nat} (hw : (regionOf o).writable = false) (hc : regionOf o ≠ .cmd) (whole : Bool)
    (v : Word) (s : State) : windowWrite whole o v s = s ∨ windowWrite whole o v s = statusW1C v s := by
  rcases windowWrite_cases whole o v s with ⟨hr, -⟩ | ⟨-, h⟩ | ⟨hw', -⟩ | ⟨hw', -⟩ | h
  · exact absurd hr hc
  · exact .inr h
  · simp [hw] at hw'
  · simp [hw] at hw'
  · exact .inl h

theorem hostWrite_readOnly {width : Width} {off : Offset} {v : Word} {s t : State}
    (hw : (regionOf off.toNat).writable = false) (hc : regionOf off.toNat ≠ .cmd)
    (h : hostWrite width off v s = .next t) : t = s ∨ t = statusW1C v s := by
  rcases hostWrite_next h with ⟨-, rfl⟩ | ⟨-, -, rfl⟩ <;> exact windowWrite_readOnly hw hc _ v s

/-- Clearing bits of STATUS records no error. -/
theorem err_of_statusW1C_err {v : Word} {s : State} (h : (statusW1C v s).err = true) : s.err = true := by
  rw [statusW1C_err] at h
  split at h
  · cases h
  · exact h

/-- Settles O30: a word at CMD is presented to a busy engine, an RW data register takes `windowWrite_busy`, and what is
neither can only clear bits of STATUS. -/
theorem writesWhileBusyAreIgnored : Obligations.WritesWhileBusyAreIgnored := by
  intro s off v hb
  rw [← raiseError_eq_keptCode]
  refine ⟨?_, fun hw => ⟨?_, fun ha => ?_⟩, fun hr => ?_, fun hw hc width t h => ?_⟩
  · rw [hostWrite_cmd_word, presentCommand_busy hb]
  · rw [hostWrite_byte, windowWrite_busy hb hw]
  · rw [hostWrite_word ha, windowWrite_busy hb hw]
  · rw [hostWrite_byte, windowWrite_cmd_byte hr]
  · rcases hostWrite_readOnly hw hc h with rfl | rfl
    · simp [sameData]
    · exact ⟨rfl, err_of_statusW1C_err, by simp [sameData]⟩

/-- Outside STATUS a write while BUSY = 1 does nothing or records E_BUSY. -/
theorem hostWrite_busy_outside_status {width : Width} {off : Offset} {v : Word} {s t : State} (hb : busy s = true)
    (hs : regionOf off.toNat ≠ .status) (h : hostWrite width off v s = .next t) : t = s ∨ t = raiseError .busy s := by
  have key : ∀ whole, windowWrite whole off.toNat v s = s ∨ windowWrite whole off.toNat v s = raiseError .busy s := by
    intro whole
    rcases windowWrite_cases whole off.toNat v s with ⟨-, -, h⟩ | ⟨hr, -⟩ | ⟨-, -, h⟩ | ⟨-, hidle, -⟩ | h
    · exact .inr (h.trans (presentCommand_busy hb v))
    · exact absurd hr hs
    · exact .inr h
    · rw [hb] at hidle; cases hidle
    · exact .inl h
  rcases hostWrite_next h with ⟨-, rfl⟩ | ⟨-, -, rfl⟩ <;> exact key _

/-- Settles O31: the idle engine's answer by the word's ground of rejection (`RejectedWith`), the busy engine's by
`hostWrite_busy_outside_status`. -/
theorem rejectionIsPrecise : Obligations.RejectionIsPrecise := by
  intro s t w ht
  rw [hostWrite_cmd_word] at ht
  cases ht
  rw [← exists_rejectedWith]
  refine ⟨presentCommand_pending_eq_none, fun hb hgrounds => ?_, fun hb width off v u hs hu => ?_⟩
  · obtain ⟨e, he⟩ := hgrounds
    have hreject : presentCommand w s = rejectCommand e s := presentCommand_rejectedWith hb he
    refine ⟨?_, e, hreject.trans (rejectCommand_eq_keptCode e s), he⟩
    rw [hreject, busy, rejectCommand_pending]
    exact hb
  · rcases hostWrite_busy_outside_status hb hs hu with rfl | rfl
    · exact .inl rfl
    · exact .inr ⟨raiseError_eq_keptCode .busy s, fun herr => raiseError_of_err herr .busy⟩

/-! How long an error stays on record (60_exceptions.md R245; 10_state.md R44, R45). -/

/-- From an error on record: both fields are cleared, or both are kept. -/
structure ClearsOrKeeps (clears : Bool) (s t : State) : Prop where
  cleared : clears = true → t.err = false ∧ t.errcode = 0#4
  kept : clears = false → t.err = true ∧ t.errcode = s.errcode

/-- The write reaches the byte of STATUS that holds DONE and ERR (10_state.md R45). -/
def reachesFlags (width : Width) (off : Offset) : Bool :=
  (width == .w32 && off == 0x0004#16) || (width == .w8 && off == 0x0007#16)

theorem clearsError_of_lineWrite {s : State} {op : HostOp} {width : Width} {off : Offset} {v : Word}
    (h : lineWrite s op = some (width, off, v)) : clearsError s op = (reachesFlags width off && v.getLsbD 2) := by
  simp [clearsError, h, reachesFlags]

theorem clearsError_tick (s : State) (op : HostOp) : clearsError (tick s) op = clearsError s op := by
  simp [clearsError]

theorem statusW1C_clearsOrKeeps {s : State} (he : s.err = true) (v : Word) :
    ClearsOrKeeps (v.getLsbD 2) s (statusW1C v s) := by
  constructor <;> intro h <;> rw [statusW1C_err, statusW1C_errcode, h]
  · exact ⟨rfl, rfl⟩
  · exact ⟨he, rfl⟩

theorem windowWrite_clearsOrKeeps {whole flags : Bool} {o : Nat} {s : State} (he : s.err = true)
    (hflags : flags = true ↔ regionOf o = .status ∧ (whole = true ∨ o = 7)) (v : Word) :
    ClearsOrKeeps (flags && v.getLsbD 2) s (windowWrite whole o v s) := by
  rcases windowWrite_err (whole := whole) (o := o) (v := v) he with ⟨hr, ho, hw⟩ | ⟨hno, hkept⟩
  · rw [hflags.mpr ⟨hr, ho⟩, Bool.true_and, hw]
    exact statusW1C_clearsOrKeeps he v
  · have hoff : flags = false := by
      rw [← Bool.not_eq_true, hflags]
      rintro ⟨hr, ho⟩
      obtain ⟨hbyte, h7⟩ := hno hr
      simp [hbyte, h7] at ho
    rw [hoff, Bool.false_and]
    exact ⟨by simp, fun _ => hkept⟩

theorem reachesFlags_byte_iff (off : Offset) :
    reachesFlags .w8 off = true ↔ regionOf off.toNat = .status ∧ off.toNat = 7 := by
  rw [regionOf_eq_iff (by decide)]
  simp only [reachesFlags, Region.Holds, ← BitVec.toNat_inj, Bool.or_eq_true, Bool.and_eq_true, beq_iff_eq,
    reduceCtorEq, BitVec.toNat_ofNat, false_and, false_or, true_and]
  omega

theorem reachesFlags_word_iff {off : Offset} (ha : off.toNat % 4 = 0) :
    reachesFlags .w32 off = true ↔ regionOf off.toNat = .status := by
  rw [regionOf_eq_iff (by decide)]
  simp only [reachesFlags, Region.Holds, ← BitVec.toNat_inj, Bool.or_eq_true, Bool.and_eq_true, beq_iff_eq,
    reduceCtorEq, BitVec.toNat_ofNat, false_and, or_false, true_and]
  omega

theorem hostWrite_clearsOrKeeps {width : Width} {off : Offset} {v : Word} {s t : State} (he : s.err = true)
    (h : hostWrite width off v s = .next t) : ClearsOrKeeps (reachesFlags width off && v.getLsbD 2) s t := by
  rcases hostWrite_next h with ⟨rfl, rfl⟩ | ⟨rfl, ha, rfl⟩
  · exact windowWrite_clearsOrKeeps he (by simpa using reachesFlags_byte_iff off) v
  · exact windowWrite_clearsOrKeeps he (by simpa using reachesFlags_word_iff ha) v

/-- A host line clears the record exactly when it is one that `clearsError` names. -/
theorem hostOp_clearsOrKeeps {op : HostOp} {s t : State} (he : s.err = true) (h : hostOp op s = .next t) :
    ClearsOrKeeps (clearsError s op) s t := by
  rcases hostOp_cases h with ⟨_, _, _, u, hline, hw, rfl⟩ | ⟨_, off, _, _, u, rfl, hread, rfl⟩ |
    ⟨_, _, _, rfl, k, rfl⟩
  · rw [clearsError_of_lineWrite hline]
    obtain ⟨hcleared, hkept⟩ := hostWrite_clearsOrKeeps he hw
    exact ⟨hcleared, hkept⟩
  · obtain ⟨n, rfl⟩ := hostRead_next hread
    refine ⟨nofun, fun _ => ?_⟩
    simp [he]
  · exact ⟨nofun, fun _ => ⟨he, rfl⟩⟩

theorem exec_keeps_error {i : Instr} {s t : State} (h : exec i s = .next t) :
    t.err = s.err ∧ t.errcode = s.errcode := by
  obtain ⟨_, _, _, rfl, -⟩ := exec_writes h
  exact ⟨rfl, rfl⟩

theorem step_reset {s : State} (h : resetDue s = true) : step s = .next (takeReset s) := by
  have hturn : turn s = .reset := if_pos h
  rw [step, hturn]

/-- Settles O32: of the three turns a reset clears the record, a completion keeps it, and the host's line does as
`hostOp_clearsOrKeeps` says; a host whose program has ended does nothing. -/
theorem firstErrorIsKept : Obligations.FirstErrorIsKept := by
  refine ⟨fun s e => ⟨fun h => raiseError_of_noErr h e, fun h => raiseError_of_err h e⟩,
    fun s t he hstep => ⟨fun hr => ?_, fun hr i hp hd => ?_, fun hr hturn => ?_⟩⟩
  · rw [step_reset hr] at hstep
    cases hstep
    exact ⟨rfl, rfl⟩
  · rw [step_completes hr hp hd] at hstep
    obtain ⟨herr, hcode⟩ := exec_keeps_error hstep
    exact ⟨herr.trans he, hcode⟩
  · rw [step, turn_eq_host hr hturn] at hstep
    rcases hostStep_cases hstep with ⟨hend, rfl⟩ | ⟨l, hl, hline⟩
    · exact ⟨fun l hl => (by cases hend.symm.trans hl), fun _ => ⟨he, rfl⟩⟩
    · obtain ⟨hcleared, hkept⟩ := hostOp_clearsOrKeeps (s := tick s) he hline
      rw [clearsError_tick] at hcleared hkept
      refine ⟨fun l' hl' hclears => ?_, fun hnone => hkept (hnone l hl)⟩
      cases hl.symm.trans hl'
      exact hcleared hclears

end Sys2Proof.Machine
end

section
/-! The statements of 70_reset_and_hazards.md: what a reset leaves, which reads are exact while a command is pending, and
what the host can and cannot disturb meanwhile. -/

namespace Sys2Proof.Machine

/-! Reset (70_reset_and_hazards.md R280, R281). -/

/-- STATUS reads 0 when nothing is pending and no field is set (10_state.md R41). -/
theorem status_eq_zero {s : State} (pending : s.pending = none) (done : s.done = false) (err : s.err = false)
    (errcode : s.errcode = 0#4) : status s = 0#32 := by
  simp [status, busy, pending, done, err, errcode]

/-- Settles O54: the step is `takeReset`, whose registers are those of `State.reset`; ID and CAP hold in every state
(O39). -/
theorem resetRestoresEveryRegister : Obligations.ResetRestoresEveryRegister := by
  intro s hr
  obtain ⟨hid, hcap, -⟩ := idAndCapAreConstants (takeReset s) 0#32
  refine ⟨takeReset s, step_reset hr, rfl, status_eq_zero rfl rfl rfl rfl, rfl, rfl, rfl, fun i => ?_, hid, hcap,
    ⟨rfl, rfl, rfl⟩⟩
  simp [State.reset]

/-- A byte read of what nothing has written is the model's fault (20_memory.md R90). -/
theorem hostRead_byte_unwritten {off : Offset} {s : State} (hr : regionOf off.toNat = .inbuf)
    (hunwritten : cellFind s.inbuf off.toNat = none) : hostRead .w8 off s = .fault .inbufReadUnwritten := by
  simp [hostRead, readByte_eq_none.mpr ⟨hr, hunwritten⟩]

/-- Settles O55: after `takeReset` INBUF lists no byte, so a read finds none and STRETCH misses its first. -/
theorem resetForgetsInbuf : Obligations.ResetForgetsInbuf := by
  intro s t hr hstep
  rw [step_reset hr] at hstep
  cases hstep
  have hunwritten : ∀ o, cellFind (takeReset s).inbuf o = none := fun _ => rfl
  exact ⟨hunwritten, fun off hin => hostRead_byte_unwritten hin (hunwritten _),
    fun len hlen => exec_stretch_fault_iff.mpr (.inr ⟨0, hlen, hunwritten _⟩)⟩

/-! Operand protection (70_reset_and_hazards.md R284). -/

/-- Settles O58: the step only passes its time (`step_undisturbed`), which takes one from the delay. -/
theorem operandsAreProtectedWhileBusy : Obligations.OperandsAreProtectedWhileBusy := by
  intro s t hb hr hd hstep
  obtain ⟨hpending, hdata, hdone, hdelay, -⟩ := step_undisturbed hb hr hd hstep
  rw [tick_delay] at hdelay
  exact ⟨hpending, hdata, hdone, by omega⟩

/-! The result hazard (70_reset_and_hazards.md R285). -/

theorem resultHazard_eq_true {o : Nat} {s : State} (hb : busy s = true) (hz : (regionOf o).hazardous = true) :
    resultHazard o s = true := by
  simp [resultHazard, hb, hz]

theorem readByte_free {o : Nat} {s : State} (hb : busy s = true) (hz : (regionOf o).hazardous = true) (k : Nat) :
    readByte k o s = some (Config.unspecifiedByte k) := if_pos (resultHazard_eq_true hb hz)

theorem drawn_free {o : Nat} {s : State} (hb : busy s = true) (hz : (regionOf o).hazardous = true) (n : Nat) :
    drawn o n s = { s with draws := s.draws + n } := if_pos (resultHazard_eq_true hb hz)

/-- The word of an aligned read is the concatenation of its four bytes (20_memory.md R82). -/
theorem hostRead_word_of_readBytes {off : Offset} {s : State} {b0 b1 b2 b3 : Byte} (ha : off.toNat % 4 = 0)
    (h0 : readByte s.draws off.toNat s = some b0) (h1 : readByte (s.draws + 1) (off.toNat + 1) s = some b1)
    (h2 : readByte (s.draws + 2) (off.toNat + 2) s = some b2)
    (h3 : readByte (s.draws + 3) (off.toNat + 3) s = some b3) :
    hostRead .w32 off s = .next (b0 ++ b1 ++ b2 ++ b3, drawn off.toNat 4 s) := by
  simp [hostRead, ha, h0, h1, h2, h3, wordOfBytes]

/-- Settles O46: `ReadByte` answers a free value exactly under the hazard, and the four bytes of an aligned word lie
under it together (`regionOf_aligned`). -/
theorem busyResultReadsAreFree : Obligations.BusyResultReadsAreFree := by
  intro s off hb
  refine ⟨fun hz => ⟨?_, fun ha => ?_⟩,
    fun hz => ⟨fun b => hostRead_byte_exact hz, fun ha b0 b1 b2 b3 h0 h1 h2 h3 => ?_⟩⟩
  · simp [hostRead, readByte_free hb hz, drawn_free hb hz]
  · have hfree : ∀ j, j < 4 → ∀ k, readByte k (off.toNat + j) s = some (Config.unspecifiedByte k) :=
      fun j hj => readByte_free hb (by rwa [regionOf_aligned ha hj])
    rw [← drawn_free hb hz]
    exact hostRead_word_of_readBytes ha (hfree 0 (by decide) _) (hfree 1 (by decide) _) (hfree 2 (by decide) _)
      (hfree 3 (by decide) _)
  · have hexact : ∀ j, j < 4 → ∀ k, readByte k (off.toNat + j) s = windowByte (off.toNat + j) s :=
      fun j hj k => readByte_eq_windowByte (by rwa [regionOf_aligned ha hj]) k s
    rw [hostRead_word_of_readBytes ha ((hexact 0 (by decide) _).trans h0) ((hexact 1 (by decide) _).trans h1)
      ((hexact 2 (by decide) _).trans h2) ((hexact 3 (by decide) _).trans h3), drawn_eq_self hz]

/-! The required wait (70_reset_and_hazards.md R286, R288). -/

/-- While BUSY = 1 a line that keeps the wait writes neither CMD nor an RW data register. -/
theorem keepsWait_write {s : State} {op : HostOp} {width : Width} {off : Offset} {v : Word} (hb : busy s = true)
    (hkeeps : keepsWait s op = true) (hline : lineWrite s op = some (width, off, v)) :
    (regionOf off.toNat).writable = false ∧ regionOf off.toNat ≠ .cmd := by
  cases op with
  | wr | wrXor =>
    cases hline
    simpa [keepsWait, hb] using hkeeps
  | rd | bnz => cases hline

theorem keepsWait_read {s : State} {width : Width} {off : Offset} {name : Nat} (hb : busy s = true)
    (hkeeps : keepsWait s (.rd width off name) = true) : (regionOf off.toNat).hazardous = false := by
  simpa [keepsWait, hb] using hkeeps

/-- Settles O48: a line that waits can only clear bits of STATUS, read exactly, or jump; that it leaves the pending
command alone holds of every line (`hostOp_undisturbed`). -/
theorem hostThatWaitsDisturbsNothing : Obligations.HostThatWaitsDisturbsNothing := by
  intro s t op hb hkeeps hop
  obtain ⟨hpending, hdata, -⟩ := hostOp_undisturbed hb hop
  obtain ⟨herr, hdraws⟩ : (t.err = true → s.err = true) ∧ t.draws = s.draws := by
    rcases hostOp_cases hop with ⟨_, _, _, u, hline, hw, rfl⟩ | ⟨_, _, _, _, u, rfl, hread, rfl⟩ | ⟨_, _, _, -, k, rfl⟩
    · obtain ⟨hreadOnly, hcmd⟩ := keepsWait_write hb hkeeps hline
      rcases hostWrite_readOnly hreadOnly hcmd hw with rfl | rfl
      · exact ⟨id, rfl⟩
      · exact ⟨err_of_statusW1C_err, rfl⟩
    · obtain ⟨n, rfl⟩ := hostRead_next hread
      rw [drawn_eq_self (keepsWait_read hb hkeeps)]
      exact ⟨id, rfl⟩
    · exact ⟨id, rfl⟩
  exact ⟨herr, hpending, hdata, hdraws⟩

end Sys2Proof.Machine
end
